-- ==== Sys2Proof/Word.lean ====
section
/-! DEFINITION. The word types of the block: 64-bit registers and memory words, bytes, and bit paths. -/

namespace Sys2Proof

/-- A 64-bit register or memory word (00_scope R10: bit 0 is the least significant). -/
abbrev Word := BitVec 64

/-- One byte of PAY, BITBUF or OUT, and a symbol of the alphabet (00_scope R6). -/
abbrev Byte := BitVec 8

/-- A bit path, root decision first: `false` (0) is a step to the left child, `true` (1) to the right
(30_encoding R94). -/
abbrev Path := List Bool

end Sys2Proof
end

