-- ==== Sys2Proof/Config.lean ====
section
/-! DEFINITION. What an implementation fixes (the OPEN parameters of 00_scope R8, R9) and the free values
(93_implementation_defined U1 to U5). -/

namespace Sys2Proof

/-- The four windows of the block (20_memory R60, R66): the register window and the three buffers. -/
inductive Window where
  | reg
  | pay
  | bitbuf
  | out
  deriving DecidableEq, Repr

/-- The parameters the model takes as an argument (00_scope R8, R9; 10_state R44). -/
structure Params where
  payMax : Nat
  bitbufMax : Nat
  outMax : Nat
  blockBase : Nat
  payBase : Nat
  bitbufBase : Nat
  outBase : Nat
  firstPickLeft : Bool
  deriving DecidableEq, Repr, Inhabited

/-- First address of a window (00_scope R8). -/
def Params.windowBase (p : Params) : Window → Nat
  | .reg => p.blockBase
  | .pay => p.payBase
  | .bitbuf => p.bitbufBase
  | .out => p.outBase

/-- Length of a window in bytes (10_state R27: the register window is 0x4000 bytes; 20_memory R70). -/
def Params.windowSize (p : Params) : Window → Nat
  | .reg => 0x4000
  | .pay => p.payMax
  | .bitbuf => p.bitbufMax
  | .out => p.outMax

/-- A capacity the spec allows: a multiple of 8, at least 8 and less than 2^60 (00_scope R8). -/
abbrev Params.capacityOk (n : Nat) : Prop := n % 8 = 0 ∧ 8 ≤ n ∧ n < 2 ^ 60

/-- Two windows share no address. -/
abbrev Params.disjoint (p : Params) (v w : Window) : Prop :=
  p.windowBase v + p.windowSize v ≤ p.windowBase w ∨
    p.windowBase w + p.windowSize w ≤ p.windowBase v

/-- Everything 00_scope R8 asks of the parameters: the capacities, bases that are multiples of 8, and
four windows that do not overlap. -/
abbrev Params.valid (p : Params) : Prop :=
  (capacityOk p.payMax ∧ capacityOk p.bitbufMax ∧ capacityOk p.outMax) ∧
  (p.blockBase % 8 = 0 ∧ p.payBase % 8 = 0 ∧ p.bitbufBase % 8 = 0 ∧ p.outBase % 8 = 0) ∧
  (p.disjoint .reg .pay ∧ p.disjoint .reg .bitbuf ∧ p.disjoint .reg .out ∧
    p.disjoint .pay .bitbuf ∧ p.disjoint .pay .out ∧ p.disjoint .bitbuf .out)

/-- The smallest capacities 00_scope R8 allows, the windows one after another. Used where a concrete
valid choice is needed: by the tests, and to normalise a draw that is not valid. -/
def Params.smallest : Params where
  payMax := 8
  bitbufMax := 8
  outMax := 8
  blockBase := 0
  payBase := 0x4000
  bitbufBase := 0x4008
  outBase := 0x4010
  firstPickLeft := true

/-- FREE (93_implementation_defined U12): the platform's choice of the OPEN parameters. It has no body,
so nothing about it can be proved but what `Config.platform` makes sure of (log entry 6). -/
opaque Config.platformDraw : Params

/-- `Config.platformDraw` where it is a choice the spec allows, else `Params.smallest`. -/
def Config.openParams : Params :=
  if Config.platformDraw.valid then Config.platformDraw else Params.smallest

/-- The parameters of this block: the OPEN ones are the platform's, any that 00_scope R8 allows;
`FIRST_PICK_LEFT` is `true` (00_scope R9). DESIGN CHOICE (log entry 6), safe. -/
def Config.platform : Params where
  payMax := Config.openParams.payMax
  bitbufMax := Config.openParams.bitbufMax
  outMax := Config.openParams.outMax
  blockBase := Config.openParams.blockBase
  payBase := Config.openParams.payBase
  bitbufBase := Config.openParams.bitbufBase
  outBase := Config.openParams.outBase
  firstPickLeft := true

/-- FREE (93_implementation_defined U1 to U5): `freeBits w d i` is the value of the `i`-th place of draw
number `d`, of `w` bits. It has no body: a claim that holds of the model holds for every value of it
(log entries 1, 7, 9). -/
opaque Config.freeBits : (w : Nat) → (draw place : Nat) → BitVec w

end Sys2Proof
end

