-- ==== Sys2Proof/Syntax.lean ====
section
/-! DEFINITION. The block's three commands, one constructor for each row of the opcode table (00_scope R2,
30_encoding R98). A command carries no operands (30_encoding R97). -/

namespace Sys2Proof

/-- A command of the block (00_scope R2: "There is no other operation"). -/
inductive Instr where
  /-- `build(frequencies: [u64;256]) -> Option<NodeArray>` (40_build R120). -/
  | build
  /-- `encode(payload: &[u8], tree) -> BitBuffer` (41_encode R150). -/
  | encode
  /-- `decode(bits: &BitBuffer, tree, expected_symbol_count: u64) -> Vec<u8>` (42_decode R180). -/
  | decode
  deriving DecidableEq, Repr

end Sys2Proof
end

