-- ==== Sys2Proof/WellFormed.lean ====
section
/-! DEFINITION. The well-formedness checks: of a command, of a command word, and of a host access. -/

namespace Sys2Proof

/-- Every command is well formed: it has no operand that could be out of range (30_encoding R97). -/
def Instr.wellFormed : Instr → Bool
  | .build => true
  | .encode => true
  | .decode => true

/-- Bits 63:8 of a command word must be written 0 (30_encoding R91, R96). -/
def CommandWord.reservedBitsZero (w : Word) : Bool := w.extractLsb' 8 56 == 0#56

/-- The OPCODE field is 0x01, 0x02 or 0x03; every other value is reserved (30_encoding R91, R96). -/
def CommandWord.opcodeDefined (w : Word) : Bool :=
  w.extractLsb' 0 8 == 0x01#8 || w.extractLsb' 0 8 == 0x02#8 || w.extractLsb' 0 8 == 0x03#8

/-- A command word that is not illegal (30_encoding R96). -/
def CommandWord.wellFormed (w : Word) : Bool :=
  CommandWord.reservedBitsZero w && CommandWord.opcodeDefined w

/-- The one width and the one alignment the block supports: 8 bytes at a multiple of 8
(20_memory R66). -/
def Access.wellFormed (offset bytes : Nat) : Bool := bytes == 8 && offset % 8 == 0

end Sys2Proof
end

