-- ==== Sys2Proof/Decode.lean ====
section
/-! DEFINITION. The command word's decoder, total on 64-bit words and rejecting by name, and the encoder
written from the same table (30_encoding R90, R91, R96, R98). -/

namespace Sys2Proof

/-- Why a word is no command (30_encoding R96). -/
inductive Reject where
  /-- A bit of 63:8 is not 0. -/
  | reservedBits
  /-- OPCODE is 0x00 or 0x04 to 0xFF. -/
  | reservedOpcode
  deriving DecidableEq, Repr

/-- The OPCODE field, bits 7:0 (30_encoding R91). -/
def opcodeField (w : Word) : BitVec 8 := w.extractLsb' 0 8

/-- The reserved field, bits 63:8 (30_encoding R91). -/
def reservedField (w : Word) : BitVec 56 := w.extractLsb' 8 56

/-- Decoding of a command word (30_encoding R90). -/
def decode (w : Word) : Except Reject Instr :=
  if reservedField w ≠ 0#56 then .error .reservedBits
  else if opcodeField w = 0x01#8 then .ok .build
  else if opcodeField w = 0x02#8 then .ok .encode
  else if opcodeField w = 0x03#8 then .ok .decode
  else .error .reservedOpcode

/-- The opcode of a command (30_encoding R91). -/
def opcodeOf : Instr → BitVec 8
  | .build => 0x01#8
  | .encode => 0x02#8
  | .decode => 0x03#8

/-- The 64-bit word of a command: OPCODE in bits 7:0, bits 63:8 zero (30_encoding R91). -/
def encode (i : Instr) : Word := 0#56 ++ opcodeOf i

/-- The command word whose bits are `w`, `nbits` of them given and the rest 0; the block has one command
length, 64 bits, so a longer number is no command word (30_encoding R90). -/
def commandWord (nbits w : Nat) : Option Word :=
  if w % 2 ^ nbits < 2 ^ 64 then some (BitVec.ofNat 64 (w % 2 ^ nbits)) else none

/-- What the decoder reads from a command word numbered as the opcode table numbers it. -/
def decodeTableWord (nbits w : Nat) : Option Instr :=
  match commandWord nbits w with
  | none => none
  | some c =>
    match decode c with
    | .ok i => some i
    | .error _ => none

end Sys2Proof
end

