-- ==== Sys2Proof/Machine/State.lean ====
section
/-! DEFINITION. The state of the block as plain data (10_state R20), the reasons a step can stop, and the
state after reset (10_state R43). -/

namespace Sys2Proof.Machine

/-- SEQ, the sequencer state (10_state R24). -/
inductive Seq where
  /-- The block does nothing and accepts a command. -/
  | idle
  /-- The block executes a command and accepts nothing. -/
  | busy (op : Instr)
  deriving DecidableEq, Repr

/-- The working values of BUILD (10_state R25): leaf count, leaf cursor, branch cursor, next free index,
branches appended. -/
structure BuildWork where
  leaves : Nat
  lc : Nat
  bc : Nat
  nf : Nat
  k : Nat
  deriving DecidableEq, Repr

/-- The working values of ENCODE (10_state R25): payload index, bits appended, partially filled byte. -/
structure EncodeWork where
  j : Nat
  nbits : Nat
  acc : Byte
  deriving DecidableEq, Repr

/-- The working values of DECODE (10_state R25): walk cursor, next bit, bytes written. -/
structure DecodeWork where
  cur : Nat
  pos : Nat
  emitted : Nat
  deriving DecidableEq, Repr

/-- The working values of the running command; dead when none runs (10_state R25). -/
inductive Work where
  | dead
  | build (w : BuildWork)
  | encode (w : EncodeWork)
  | decode (w : DecodeWork)
  deriving DecidableEq, Repr

/-- The outcome codes of RESULT (60_exceptions R210); no other code is ever produced. -/
inductive ResultCode where
  | ok
  | emptyInput
  | allocationFailure
  | treeConstructionFailure
  | treeError
  | decodeError
  | illegalCommand
  deriving DecidableEq, Repr

/-- The causes of a fault outcome, KIND 1 to 11 (60_exceptions R212). -/
inductive FaultKind where
  | frequencySum
  | nodeCountRange
  | nodeNotCanonical
  | noPath
  | payloadTooLong
  | streamTooLong
  | outputTooLong
  | bitCountTooLarge
  | bitsExhausted
  | illegalWord
  | cursorsExhausted
  deriving DecidableEq, Repr

/-- A memory of the block. `cells` lists the entries something has written since their contents were last
unspecified, addresses strictly rising; every other entry holds the free value of draw number `draw`
(10_state R43, 93_implementation_defined U1). For bytes a cell is a `Host.Cell`.
DESIGN CHOICE (log entries 1, 2), safe. -/
structure Memory (w : Nat) where
  draw : Nat
  cells : List (Nat × BitVec w)
  deriving DecidableEq, Repr

/-- CC, the code cache (10_state R41). -/
inductive Cache where
  /-- The entries with `valid` 1 and their paths, byte values strictly rising; the rest have `valid` 0. -/
  | known (entries : List (Nat × Path))
  /-- The contents a faulting ENCODE leaves, unspecified and read by nothing (41_encode R159).
  DESIGN CHOICE (log entry 10), safe. -/
  | unspecified
  deriving DecidableEq, Repr

/-- The address of a host access. -/
inductive BusAddr where
  /-- Window base plus offset, the form of 30_encoding R101. DESIGN CHOICE (log entry 6), safe. -/
  | at (win : Window) (offset : Nat)
  /-- A platform address (20_memory R66). -/
  | abs (addr : Nat)
  deriving DecidableEq, Repr

/-- What the outside can do to the block. -/
inductive HostAct where
  /-- `MemRead(addr, bytes)` (20_memory R66). -/
  | read (addr : BusAddr) (bytes : Nat)
  /-- `MemWrite(addr, bytes, v)` (20_memory R66). -/
  | write (addr : BusAddr) (bytes : Nat) (v : Word)
  /-- The platform asserts reset (70_reset_and_hazards R240). -/
  | reset
  deriving DecidableEq, Repr

/-- A pending act of the outside. `early` marks one that lands before the end of the command running when
its turn comes; without the mark the command ends first (30_encoding R90: the end may fall at any point
after acceptance). When the block is idle the mark makes no difference. DESIGN CHOICE (log entry 3), safe. -/
structure HostEvent where
  early : Bool
  act : HostAct
  deriving DecidableEq, Repr

/-- The state (10_state R20), then the model's own fields `lastRead`, `host` and `draw`. -/
structure State where
  /-- SEQ (R24); STATUS.BUSY is a view of it (R29). -/
  seq : Seq
  /-- The working values (R25). -/
  work : Work
  /-- STATUS.FAULT (R29). -/
  fault : Bool
  /-- STATUS.RESULT (R29). -/
  result : ResultCode
  /-- ERR_INFO (R30). -/
  errInfo : Word
  /-- NODE_COUNT, bits 9:0 (R31). -/
  nodeCount : BitVec 10
  /-- PAY_LEN (R32). -/
  payLen : Word
  /-- BIT_COUNT (R33). -/
  bitCount : Word
  /-- SYM_COUNT (R34). -/
  symCount : Word
  /-- OUT_LEN (R35). -/
  outLen : Word
  /-- FREQ (R22), keyed by byte value. -/
  freq : Memory 64
  /-- NODE (R37), keyed by word number: word 0 of `NODE[i]` is 2i, word 1 is 2i + 1. -/
  node : Memory 64
  /-- PAY (R38). -/
  pay : Memory 8
  /-- BITBUF (R39). -/
  bitbuf : Memory 8
  /-- OUT (R40). -/
  out : Memory 8
  /-- CC (R41). -/
  cc : Cache
  /-- The model's: what the host's last read was answered with. DESIGN CHOICE (log entry 8), safe. -/
  lastRead : Option Word
  /-- The model's: the acts of the outside still to come, oldest first. DESIGN CHOICE (log entry 3), safe. -/
  host : List HostEvent
  /-- The model's: the number of the next draw of free values. DESIGN CHOICE (log entry 2), safe. -/
  draw : Nat
  deriving DecidableEq, Repr

/-- Why a step stops the machine. No command raises one. -/
inductive Fault where
  /-- Raised by a host access whose address is in none of the four windows: "not an access to the block"
  (20_memory R67). Safe: the spec gives no meaning to it (log entry 4). -/
  | outsideWindows
  deriving DecidableEq, Repr

/-- Why a step has no meaning. No command raises one. -/
inductive Refusal where
  /-- Raised by exec's arm of an instruction that is not modelled; no arm raises it. Safe. -/
  | notModelled (mnemonic : String)
  /-- Raised by a host access inside a window that is not 64 bits wide or not at a multiple of 8: refused
  by the block with a bus error, and "a model should give such an access no meaning" (20_memory R67,
  93_implementation_defined U7). Safe (log entry 4). -/
  | busError
  deriving DecidableEq, Repr

/-- A memory whose contents are all unspecified, under draw number `d`. -/
def Memory.unwritten (w d : Nat) : Memory w := { draw := d, cells := [] }

/-- The state right after reset (10_state R43). -/
def State.reset : State where
  seq := .idle
  work := .dead
  fault := false
  result := .ok
  errInfo := 0#64
  nodeCount := 0#10
  payLen := 0#64
  bitCount := 0#64
  symCount := 0#64
  outLen := 0#64
  freq := Memory.unwritten 64 0
  node := Memory.unwritten 64 1
  pay := Memory.unwritten 8 2
  bitbuf := Memory.unwritten 8 3
  out := Memory.unwritten 8 4
  cc := .known []
  lastRead := none
  host := []
  draw := 5

end Sys2Proof.Machine
end

