-- ==== Sys2Proof/Machine/Flags.lean ====
section
/-! DEFINITION. The flags and the codes: STATUS as the host reads it (10_state R29), the RESULT codes
(60_exceptions R210), the KIND codes and ERR_INFO (60_exceptions R212, 10_state R30). -/

namespace Sys2Proof.Machine

/-- The 8-bit RESULT code (60_exceptions R210). -/
def ResultCode.code : ResultCode → BitVec 8
  | .ok => 0x00#8
  | .emptyInput => 0x01#8
  | .allocationFailure => 0x02#8
  | .treeConstructionFailure => 0x03#8
  | .treeError => 0x04#8
  | .decodeError => 0x05#8
  | .illegalCommand => 0x06#8

/-- Codes 0x02 and above are faults (60_exceptions R210). -/
def ResultCode.isFault (r : ResultCode) : Bool := decide (2 ≤ r.code.toNat)

/-- The 4-bit KIND code (60_exceptions R212). -/
def FaultKind.code : FaultKind → BitVec 4
  | .frequencySum => 1#4
  | .nodeCountRange => 2#4
  | .nodeNotCanonical => 3#4
  | .noPath => 4#4
  | .payloadTooLong => 5#4
  | .streamTooLong => 6#4
  | .outputTooLong => 7#4
  | .bitCountTooLarge => 8#4
  | .bitsExhausted => 9#4
  | .illegalWord => 10#4
  | .cursorsExhausted => 11#4

/-- "KIND determines RESULT" (60_exceptions R212). -/
def FaultKind.result : FaultKind → ResultCode
  | .frequencySum => .treeConstructionFailure
  | .nodeCountRange => .treeError
  | .nodeNotCanonical => .treeError
  | .noPath => .treeError
  | .payloadTooLong => .allocationFailure
  | .streamTooLong => .allocationFailure
  | .outputTooLong => .allocationFailure
  | .bitCountTooLarge => .allocationFailure
  | .bitsExhausted => .decodeError
  | .illegalWord => .illegalCommand
  | .cursorsExhausted => .treeConstructionFailure

/-- ERR_INFO = KIND in bits 63:60, VALUE in bits 59:0 (10_state R30, 60_exceptions R212). -/
def errInfoOf (kind : FaultKind) (value : Nat) : Word := kind.code ++ BitVec.ofNat 60 value

/-- SEQ is `BUSY(op)` (10_state R24). -/
def Seq.isBusy : Seq → Bool
  | .idle => false
  | .busy _ => true

/-- STATUS: BUSY in bit 0, FAULT in bit 1, RESULT in bits 15:8, the reserved bits 0 (10_state R29). -/
def State.status (s : State) : Word :=
  0#48 ++ s.result.code ++ 0#6 ++ BitVec.ofBool s.fault ++ BitVec.ofBool s.seq.isBusy

end Sys2Proof.Machine
end

