-- ==== Sys2Proof/Machine/Ops.lean ====
section
/-! DEFINITION. The named operations: reading and writing memories, the code cache, how a command ends
(60_exceptions R214, R215), what a fault makes unspecified (40_build R129, 41_encode R159, 42_decode R188),
the acknowledge (60_exceptions R219) and reset (70_reset_and_hazards R240). -/

namespace Sys2Proof.Machine

/-! ### Listed entries -/

/-- The value listed at `a`. -/
def cellsGet {α : Type} : List (Nat × α) → Nat → Option α
  | [], _ => none
  | (b, v) :: rest, a => if b = a then some v else cellsGet rest a

/-- The list with `v` at `a`; a rising list stays rising. -/
def cellsPut {α : Type} : List (Nat × α) → Nat → α → List (Nat × α)
  | [], a, v => [(a, v)]
  | (b, x) :: rest, a, v =>
    if a < b then (a, v) :: (b, x) :: rest
    else if b = a then (a, v) :: rest
    else (b, x) :: cellsPut rest a v

/-- The canonical form: addresses strictly rising. -/
abbrev cellsRising {α : Type} (c : List (Nat × α)) : Prop := c.Pairwise (fun x y => x.1 < y.1)

/-- Every listed address is below `n`. -/
abbrev cellsBelow {α : Type} (n : Nat) (c : List (Nat × α)) : Prop := ∀ x ∈ c, x.1 < n

/-! ### Memories -/

/-- What an entry that nothing has written holds: a free value, the same at every read until the contents
become unspecified again (10_state R43, 20_memory R69). -/
def Memory.unlisted {w : Nat} (m : Memory w) (a : Nat) : BitVec w := Config.freeBits w m.draw a

/-- One entry of a memory. -/
def Memory.read {w : Nat} (m : Memory w) (a : Nat) : BitVec w :=
  (cellsGet m.cells a).getD (m.unlisted a)

/-- Writing one entry lists it. -/
def Memory.write {w : Nat} (m : Memory w) (a : Nat) (v : BitVec w) : Memory w :=
  { m with cells := cellsPut m.cells a v }

/-- The canonical form of a memory. -/
abbrev Memory.wf {w : Nat} (m : Memory w) : Prop := cellsRising m.cells

/-- No entry outside the memory's size is listed. -/
abbrev Memory.within {w : Nat} (m : Memory w) (size : Nat) : Prop := cellsBelow size m.cells

/-- Writing consecutive entries from `a` on. -/
def Memory.writeList {w : Nat} (m : Memory w) (a : Nat) : List (BitVec w) → Memory w
  | [] => m
  | v :: rest => (m.write a v).writeList (a + 1) rest

/-! ### The code cache -/

/-- CC with every `valid` 0 (10_state R41). -/
def Cache.cleared : Cache := .known []

/-! ### How a command ends -/

/-- `finish <RESULT>`: RESULT, ERR_INFO 0, FAULT unchanged, SEQ IDLE, the working values dead
(60_exceptions R214, 10_state R25). -/
def State.finish (s : State) (r : ResultCode) : State :=
  { s with result := r, errInfo := 0#64, seq := .idle, work := .dead }

/-- `raise <RESULT>(kind, value)`: the block's fault entry (60_exceptions R215), once the command's output
state is set as its fault rule says. -/
def State.raise (s : State) (kind : FaultKind) (value : Nat) : State :=
  { s with result := kind.result, errInfo := errInfoOf kind value, fault := true, seq := .idle, work := .dead }

/-- The acknowledge: a write to STATUS clears FAULT when bit 1 of it is 1 and changes nothing else
(60_exceptions R219, 10_state R29). -/
def State.acknowledge (s : State) (v : Word) : State :=
  { s with fault := s.fault && !v.getLsbD 1 }

/-- What a faulting BUILD leaves: NODE_COUNT 0, the whole of NODE unspecified (40_build R129;
DESIGN CHOICE, log entry 9, safe). -/
def State.discardTree (s : State) : State :=
  { s with nodeCount := 0#10, node := Memory.unwritten 64 s.draw, draw := s.draw + 1 }

/-- What a faulting ENCODE leaves: BIT_COUNT 0, the whole of BITBUF and CC unspecified (41_encode R159;
DESIGN CHOICE, log entries 9, 10, safe). -/
def State.discardStream (s : State) : State :=
  { s with bitCount := 0#64, bitbuf := Memory.unwritten 8 s.draw, cc := .unspecified, draw := s.draw + 1 }

/-- What a faulting DECODE leaves: OUT_LEN 0, the whole of OUT unspecified (42_decode R188;
DESIGN CHOICE, log entry 9, safe). -/
def State.discardOutput (s : State) : State :=
  { s with outLen := 0#64, out := Memory.unwritten 8 s.draw, draw := s.draw + 1 }

/-- Every `CC[s].valid` becomes 0 (10_state R41, 20_memory R76). -/
def State.clearCache (s : State) : State := { s with cc := Cache.cleared }

/-! ### Reset -/

/-- Reset asserted by the platform, a command running or not: the state of `State.reset`, the five memories
unspecified under fresh draws (70_reset_and_hazards R240, R241). What the outside has yet to do and what it
was last told are not the block's, and stay. DESIGN CHOICE (log entry 13), safe. -/
def State.platformReset (s : State) : State :=
  { State.reset with
    freq := Memory.unwritten 64 s.draw
    node := Memory.unwritten 64 (s.draw + 1)
    pay := Memory.unwritten 8 (s.draw + 2)
    bitbuf := Memory.unwritten 8 (s.draw + 3)
    out := Memory.unwritten 8 (s.draw + 4)
    lastRead := s.lastRead
    host := s.host
    draw := s.draw + 5 }

end Sys2Proof.Machine
end

