-- ==== Sys2Proof/Machine/Operands.lean ====
section
/-! DEFINITION. The operands of the commands: the node record and its check (30_encoding R92, R93; 41_encode
R152), the search of the tree (41_encode R153), the frequency table (40_build R120), the bits of the bit
buffer (20_memory R62) and the byte lanes of the buffer windows (20_memory R61). -/

namespace Sys2Proof.Machine

/-! ### The node record -/

/-- A node record (30_encoding R92). -/
inductive Node where
  | leaf (byte : Byte) (freq : Word)
  | branch (left right : Nat) (freq : Word)
  deriving DecidableEq, Repr

/-- The node's frequency, word 1 (30_encoding R92). -/
def Node.freq : Node → Word
  | .leaf _ f => f
  | .branch _ _ f => f

/-- Word 0: `v << 8` of a leaf, `1 | (l << 16) | (r << 32)` of a branch (30_encoding R92). -/
def Node.word0 : Node → Word
  | .leaf v _ => v.setWidth 64 <<< 8
  | .branch l r _ => 1#64 ||| (BitVec.ofNat 64 l <<< 16) ||| (BitVec.ofNat 64 r <<< 32)

/-- TAG, bit 0: `true` is Branch. -/
def tagField (w : Word) : Bool := w.getLsbD 0

/-- BYTE, bits 15:8. -/
def byteField (w : Word) : Byte := w.extractLsb' 8 8

/-- LEFT, bits 24:16. -/
def leftField (w : Word) : Nat := (w.extractLsb' 16 9).toNat

/-- RIGHT, bits 40:32. -/
def rightField (w : Word) : Nat := (w.extractLsb' 32 9).toNat

/-- The reserved bits 7:1, 31:25 and 63:41 are 0. -/
def nodeReservedZero (w : Word) : Bool :=
  w.extractLsb' 1 7 == 0#7 && w.extractLsb' 25 7 == 0#7 && w.extractLsb' 41 23 == 0#23

/-- `RecordOK(i)` of word 0 of `NODE[i]` (30_encoding R93). -/
def recordOk (i : Nat) (w : Word) : Bool :=
  nodeReservedZero w &&
    (if tagField w then byteField w == 0#8 && decide (leftField w < i) && decide (rightField w < i)
     else leftField w == 0 && rightField w == 0)

/-- Word 0 of `NODE[i]` (20_memory R65). -/
def nodeWord0 (node : Memory 64) (i : Nat) : Word := node.read (2 * i)

/-- The words of consecutive node entries, in address order (20_memory R65). -/
def nodeWords : List Node → List Word
  | [] => []
  | n :: rest => n.word0 :: n.freq :: nodeWords rest

/-- Writing `NODE[0 .. nodes.length - 1]` (30_encoding R92). -/
def writeNodes (node : Memory 64) (nodes : List Node) : Memory 64 := node.writeList 0 (nodeWords nodes)

/-! ### The node array -/

/-- The root, `NODE[NODE_COUNT - 1]` (00_scope R14). -/
def State.root (s : State) : Nat := s.nodeCount.toNat - 1

/-- The lowest index below `n` whose record is not canonical. -/
def firstBadNode (node : Memory 64) (n : Nat) : Option Nat :=
  (List.range n).find? (fun i => !recordOk i (nodeWord0 node i))

/-- `TreeCheck()`: the KIND and VALUE it raises, or none (41_encode R152). -/
def treeCheck (s : State) : Option (FaultKind × Nat) :=
  let n := s.nodeCount.toNat
  if n = 0 ∨ 511 < n then some (.nodeCountRange, n)
  else (firstBadNode s.node n).map (fun i => (.nodeNotCanonical, i))

/-- `FindPath(i, s)`: the path from node `i` to the first leaf carrying `s`, left first (41_encode R153).
`budget` bounds the depth; in a checked array a walk from index `i` is shorter than `i + 1`.
DEDUCED (log entry 14), safe. -/
def findPath (node : Memory 64) : (budget : Nat) → (i : Nat) → (s : Byte) → Option Path
  | 0, _, _ => none
  | budget + 1, i, s =>
    let w := nodeWord0 node i
    if tagField w then
      match findPath node budget (leftField w) s with
      | some p => some (false :: p)
      | none =>
        match findPath node budget (rightField w) s with
        | some p => some (true :: p)
        | none => none
    else if byteField w = s then some []
    else none

/-- `FindPath(root, s)` on the node array of the state (41_encode R150). -/
def State.findRootPath (st : State) (s : Byte) : Option Path :=
  findPath st.node (st.root + 1) st.root s

/-! ### The frequency table -/

/-- `FREQ[0], …, FREQ[255]` (10_state R22). -/
def State.freqTable (s : State) : List Word := (List.range 256).map s.freq.read

/-- The pairs (byte, frequency) with a non-zero frequency, in ascending byte order (40_build R120). -/
def nonzeroLeaves (table : List Word) : List (Byte × Word) :=
  (table.zipIdx.filter (fun x => x.1 != 0#64)).map (fun x => (BitVec.ofNat 8 x.2, x.1))

/-- The order of the sort: by frequency, then by byte value (40_build R123). -/
def leafBefore (x y : Byte × Word) : Bool :=
  decide (x.2.toNat < y.2.toNat) || (x.2 == y.2 && decide (x.1.toNat < y.1.toNat))

/-- Insertion of a leaf before the first leaf it comes before. -/
def insertLeaf (x : Byte × Word) : List (Byte × Word) → List (Byte × Word)
  | [] => [x]
  | y :: rest => if leafBefore x y then x :: y :: rest else y :: insertLeaf x rest

/-- The leaves sorted ascending by frequency, then by byte value (40_build R123). -/
def sortLeaves : List (Byte × Word) → List (Byte × Word)
  | [] => []
  | x :: rest => insertLeaf x (sortLeaves rest)

/-! ### Bits and lanes -/

/-- `BitRead(i)`: bit `7 - (i mod 8)` of byte `i div 8` (20_memory R62). -/
def bitRead (bitbuf : Memory 8) (i : Nat) : Bool := (bitbuf.read (i / 8)).getLsbD (7 - i % 8)

/-- The byte with bit `x` at the place of stream bit `i`: `x << (7 - (i mod 8))` (41_encode R150). -/
def bitAt (x : Bool) (i : Nat) : Byte := if x then 1#8 <<< (7 - i % 8) else 0#8

/-- Word `n` of a buffer window: byte `8n + m` in bits `8m + 7 : 8m` (20_memory R61). -/
def readLanes (m : Memory 8) (n : Nat) : Word :=
  m.read (8 * n + 7) ++ m.read (8 * n + 6) ++ m.read (8 * n + 5) ++ m.read (8 * n + 4) ++
    m.read (8 * n + 3) ++ m.read (8 * n + 2) ++ m.read (8 * n + 1) ++ m.read (8 * n)

/-- A 64-bit write replaces all eight bytes of word `n` (20_memory R61). -/
def writeLanes (m : Memory 8) (n : Nat) (v : Word) : Memory 8 :=
  m.writeList (8 * n) ((List.range 8).map (fun k => v.extractLsb' (8 * k) 8))

end Sys2Proof.Machine
end

