-- ==== Sys2Proof/Machine/Decoder.lean ====
section
/-! DEFINITION. DECODE, the sub-block huffman_decoder (42_decode R180 to R194). -/

namespace Sys2Proof.Machine

/-- The working values DECODE starts its walk from (42_decode R180). -/
def DecodeWork.start (root : Nat) : DecodeWork := { cur := root, pos := 0, emitted := 0 }

/-- `n` copies of a byte from index 0 on, the leaf-root case (42_decode R182). -/
def fillOut (out : Memory 8) (b : Byte) : (n : Nat) → Memory 8
  | 0 => out
  | n + 1 => (fillOut out b n).write n b

/-- The node a bit leads to from `cur`: 0 to the left child, 1 to the right (42_decode R184). -/
def childOf (node : Memory 64) (cur : Nat) (x : Bool) : Nat :=
  if x then rightField (nodeWord0 node cur) else leftField (nodeWord0 node cur)

/-- One bit of the walk: a leaf's byte is written and the cursor returns to the root (42_decode R184). -/
def walkBit (s : State) (w : DecodeWork) (out : Memory 8) : DecodeWork × Memory 8 :=
  let cur := childOf s.node w.cur (bitRead s.bitbuf w.pos)
  if tagField (nodeWord0 s.node cur) then ({ w with cur := cur, pos := w.pos + 1 }, out)
  else
    ({ cur := s.root, pos := w.pos + 1, emitted := w.emitted + 1 },
      out.write w.emitted (byteField (nodeWord0 s.node cur)))

/-- The walk with `bits` bits left before BIT_COUNT; the count is tested before each bit (42_decode R184),
and a bit needed where none is left is DECODE_ERROR kind 9 (R185). -/
def walk (s : State) : (bits : Nat) → DecodeWork → Memory 8 → Except (FaultKind × Nat) (Memory 8)
  | 0, w, out => if w.emitted < s.symCount.toNat then .error (.bitsExhausted, w.emitted) else .ok out
  | bits + 1, w, out =>
    if w.emitted < s.symCount.toNat then walk s bits (walkBit s w out).1 (walkBit s w out).2 else .ok out

/-- OUT at the end of a decode of at least one symbol, or what it raises (42_decode R180). -/
def decodeStream (p : Params) (s : State) : Except (FaultKind × Nat) (Memory 8) :=
  if p.outMax < s.symCount.toNat then .error (.outputTooLong, 0)
  else
    match treeCheck s with
    | some e => .error e
    | none =>
      if tagField (nodeWord0 s.node s.root) then
        if 8 * p.bitbufMax < s.bitCount.toNat then .error (.bitCountTooLarge, 0)
        else walk s s.bitCount.toNat (DecodeWork.start s.root) s.out
      else .ok (fillOut s.out (byteField (nodeWord0 s.node s.root)) s.symCount.toNat)

/-- DECODE (42_decode R180): the state at its end from the state at its start. -/
def decodeEffect (p : Params) (s : State) : State :=
  if s.symCount = 0#64 then { s with outLen := 0#64 }.finish .ok
  else
    match decodeStream p s with
    | .error (kind, value) => s.discardOutput.raise kind value
    | .ok out => { s with out := out, outLen := s.symCount }.finish .ok

/-- The meaning of DECODE: whatever the state, it ends with an outcome. -/
def execDecode (s : State) : Host.Outcome State Fault Refusal :=
  .next (decodeEffect Config.platform s)

end Sys2Proof.Machine
end

