-- ==== Sys2Proof/Machine/Encoder.lean ====
section
/-! DEFINITION. ENCODE, the sub-block huffman_encoder (41_encode R150 to R164). -/

namespace Sys2Proof.Machine

/-- What ENCODE carries from one payload byte to the next: its working values (10_state R25), the code
cache's entries and the bit buffer. -/
structure EncodeRun where
  work : EncodeWork
  cc : List (Nat × Path)
  bitbuf : Memory 8
  deriving DecidableEq, Repr

/-- The working values ENCODE starts from (41_encode R150). -/
def EncodeWork.start : EncodeWork := { j := 0, nbits := 0, acc := 0#8 }

/-- Appending one bit: into `acc`, and to BITBUF when the byte is full (41_encode R156). -/
def appendBit (r : EncodeRun) (x : Bool) : EncodeRun :=
  let acc := r.work.acc ||| bitAt x r.work.nbits
  let nbits := r.work.nbits + 1
  if nbits % 8 = 0 then
    { r with work := { r.work with nbits := nbits, acc := 0#8 }, bitbuf := r.bitbuf.write (nbits / 8 - 1) acc }
  else { r with work := { r.work with nbits := nbits, acc := acc } }

/-- Appending a path, root decision first (41_encode R156). -/
def appendPath (r : EncodeRun) (p : Path) : EncodeRun := p.foldl appendBit r

/-- The path of a byte: from the cache, or found and entered into it (41_encode R154). -/
def cachedPath (st : State) (cc : List (Nat × Path)) (s : Byte) : Option (Path × List (Nat × Path)) :=
  match cellsGet cc s.toNat with
  | some p => some (p, cc)
  | none =>
    match st.findRootPath s with
    | some p => some (p, cellsPut cc s.toNat p)
    | none => none

/-- One payload byte: no path is TREE_ERROR kind 4 (41_encode R160), a path that does not fit is
ALLOCATION_FAILURE kind 6 (R157), in this order (60_exceptions R217). -/
def encodeByte (p : Params) (st : State) (r : EncodeRun) : Except (FaultKind × Nat) EncodeRun :=
  match cachedPath st r.cc (st.pay.read r.work.j) with
  | none => .error (.noPath, r.work.j)
  | some (path, cc) =>
    if 8 * p.bitbufMax < r.work.nbits + path.length then .error (.streamTooLong, r.work.j)
    else
      let r' := appendPath { r with cc := cc } path
      .ok { r' with work := { r'.work with j := r.work.j + 1 } }

/-- The next `n` payload bytes (41_encode R150). -/
def encodeLoop (p : Params) (st : State) : (n : Nat) → EncodeRun → Except (FaultKind × Nat) EncodeRun
  | 0, r => .ok r
  | n + 1, r =>
    match encodeByte p st r with
    | .error e => .error e
    | .ok r' => encodeLoop p st n r'

/-- A partly filled last byte is written, its low-order bits 0 (41_encode R158). -/
def flushByte (r : EncodeRun) : EncodeRun :=
  if r.work.nbits % 8 = 0 then r
  else { r with bitbuf := r.bitbuf.write (r.work.nbits / 8) r.work.acc }

/-- The whole run over the payload, or what it raises (41_encode R150). -/
def encodePayload (p : Params) (st : State) : Except (FaultKind × Nat) EncodeRun :=
  if p.payMax < st.payLen.toNat then .error (.payloadTooLong, 0)
  else
    match treeCheck st with
    | some e => .error e
    | none =>
      match encodeLoop p st st.payLen.toNat { work := EncodeWork.start, cc := [], bitbuf := st.bitbuf } with
      | .error e => .error e
      | .ok r => .ok (flushByte r)

/-- ENCODE (41_encode R150): the state at its end from the state at its start. -/
def encodeEffect (p : Params) (s : State) : State :=
  let s := s.clearCache
  if s.payLen = 0#64 then { s with bitCount := 0#64 }.finish .ok
  else
    match encodePayload p s with
    | .error (kind, value) => s.discardStream.raise kind value
    | .ok r =>
      { s with bitbuf := r.bitbuf, bitCount := BitVec.ofNat 64 r.work.nbits, cc := .known r.cc }.finish .ok

/-- The meaning of ENCODE: whatever the state, it ends with an outcome. -/
def execEncode (s : State) : Host.Outcome State Fault Refusal :=
  .next (encodeEffect Config.platform s)

end Sys2Proof.Machine
end

