-- ==== Sys2Proof/Machine/TreeBuilder.lean ====
section
/-! DEFINITION. BUILD, the sub-block huffman_tree_builder (40_build R120 to R134). The node array grows as a
list, `nodes[i]` being `NODE[i]`, and is written to NODE when the command ends with a tree; what NODE holds
in between is not observable (20_memory R72). DEDUCED (log entry 15), safe. -/

namespace Sys2Proof.Machine

/-- The sorted leaves as records (40_build R120). -/
def leafNodes (table : List Word) : List Node :=
  (sortLeaves (nonzeroLeaves table)).map (fun x => .leaf x.1 x.2)

/-- The working values BUILD starts its merge from (40_build R120, 10_state R25). -/
def BuildWork.start (leaves : Nat) : BuildWork :=
  { leaves := leaves, lc := 0, bc := leaves, nf := leaves, k := 0 }

/-- `NODE[i].freq` of the array so far. -/
def freqAt (nodes : List Node) (i : Nat) : Word :=
  match nodes[i]? with
  | some n => n.freq
  | none => 0#64

/-- `Pick()` (40_build R124): the index taken and the working values after it, or none where both cursors
are exhausted. On equal frequencies the leaf is taken. -/
def pick (nodes : List Node) (w : BuildWork) : Option (Nat × BuildWork) :=
  if w.lc < w.leaves ∧ (¬ w.bc < w.nf ∨ (freqAt nodes w.lc).toNat ≤ (freqAt nodes w.bc).toNat) then
    some (w.lc, { w with lc := w.lc + 1 })
  else if w.bc < w.nf then some (w.bc, { w with bc := w.bc + 1 })
  else none

/-- The record appended for the picks `a` then `b` (40_build R125, 00_scope R9). -/
def joinNodes (firstPickLeft : Bool) (a b : Nat) (f : Word) : Node :=
  if firstPickLeft then .branch a b f else .branch b a f

/-- One merge step (40_build R125): the array with the new branch and the working values, or the KIND and
VALUE raised (R126, R131). The sum is exact. -/
def mergeStep (firstPickLeft : Bool) (nodes : List Node) (w : BuildWork) :
    Except (FaultKind × Nat) (List Node × BuildWork) :=
  match pick nodes w with
  | none => .error (.cursorsExhausted, w.nf)
  | some (a, w1) =>
    match pick nodes w1 with
    | none => .error (.cursorsExhausted, w1.nf)
    | some (b, w2) =>
      let sum := (freqAt nodes a).toNat + (freqAt nodes b).toNat
      if 2 ^ 64 ≤ sum then .error (.frequencySum, w2.nf)
      else
        .ok (nodes ++ [joinNodes firstPickLeft a b (BitVec.ofNat 64 sum)],
          { w2 with nf := w2.nf + 1, k := w2.k + 1 })

/-- `steps` merge steps (40_build R120, R125). -/
def mergeLoop (firstPickLeft : Bool) :
    (steps : Nat) → List Node → BuildWork → Except (FaultKind × Nat) (List Node)
  | 0, nodes, _ => .ok nodes
  | steps + 1, nodes, w =>
    match mergeStep firstPickLeft nodes w with
    | .error e => .error e
    | .ok (nodes', w') => mergeLoop firstPickLeft steps nodes' w'

/-- The node array of a frequency table, or what BUILD raises: the merge makes one branch fewer than there
are leaves (40_build R120). No leaves give the empty array. -/
def buildTree (firstPickLeft : Bool) (table : List Word) : Except (FaultKind × Nat) (List Node) :=
  let leaves := leafNodes table
  mergeLoop firstPickLeft (leaves.length - 1) leaves (BuildWork.start leaves.length)

/-- BUILD (40_build R120): the state at its end from the state at its start. -/
def buildEffect (firstPickLeft : Bool) (s : State) : State :=
  let s := s.clearCache
  match buildTree firstPickLeft s.freqTable with
  | .ok [] => { s with nodeCount := 0#10 }.finish .emptyInput
  | .ok nodes =>
    { s with node := writeNodes s.node nodes, nodeCount := BitVec.ofNat 10 nodes.length }.finish .ok
  | .error (kind, value) => s.discardTree.raise kind value

/-- The meaning of BUILD: whatever the state, it ends with an outcome. -/
def execBuild (s : State) : Host.Outcome State Fault Refusal :=
  .next (buildEffect Config.platform.firstPickLeft s)

end Sys2Proof.Machine
end

