-- ==== Sys2Proof/Machine/Bus.lean ====
section
/-! DEFINITION. The host's bus accesses: the address map (10_state R27, 20_memory R70), reading and writing
each location (10_state R28 to R40, 20_memory R61, R66 to R71), and the acceptance of a command
(30_encoding R90). -/

namespace Sys2Proof.Machine

/-- A location the host can name (10_state R27; 20_memory R60). -/
inductive Loc where
  | cmd
  | status
  | errInfo
  | nodeCount
  | payLen
  | bitCount
  | symCount
  | outLen
  | reserved
  | freq (v : Nat)
  /-- Word number `k` of NODE: `NODE[k div 2]` word `k mod 2` (20_memory R65). -/
  | nodeWord (k : Nat)
  | payWord (n : Nat)
  | bitbufWord (n : Nat)
  | outWord (n : Nat)
  deriving DecidableEq, Repr

/-! ### The address map -/

/-- The address lies in the window. -/
def inWindow (p : Params) (addr : Nat) (win : Window) : Bool :=
  decide (p.windowBase win ≤ addr) && decide (addr < p.windowBase win + p.windowSize win)

/-- The window of a platform address and the offset in it (20_memory R70). -/
def locateAbs (p : Params) (addr : Nat) : Option (Window × Nat) :=
  if inWindow p addr .reg then some (.reg, addr - p.windowBase .reg)
  else if inWindow p addr .pay then some (.pay, addr - p.windowBase .pay)
  else if inWindow p addr .bitbuf then some (.bitbuf, addr - p.windowBase .bitbuf)
  else if inWindow p addr .out then some (.out, addr - p.windowBase .out)
  else none

/-- The window and offset of an access. A base-plus-offset address past its window's end is the platform
address it adds up to. DESIGN CHOICE (log entry 6), safe. -/
def locate (p : Params) : BusAddr → Option (Window × Nat)
  | .abs addr => locateAbs p addr
  | .at win off => if off < p.windowSize win then some (win, off) else locateAbs p (p.windowBase win + off)

/-- The location at an aligned offset of the register window (10_state R27). -/
def regLoc (off : Nat) : Loc :=
  if off = 0x0000 then .cmd
  else if off = 0x0008 then .status
  else if off = 0x0010 then .errInfo
  else if off = 0x0018 then .nodeCount
  else if off = 0x0020 then .payLen
  else if off = 0x0028 then .bitCount
  else if off = 0x0030 then .symCount
  else if off = 0x0038 then .outLen
  else if off < 0x0800 then .reserved
  else if off < 0x1000 then .freq ((off - 0x0800) / 8)
  else if off < 0x2000 then .reserved
  else if off < 0x3FF0 then .nodeWord ((off - 0x2000) / 8)
  else .reserved

/-- The location at an aligned offset of a window (10_state R27, 20_memory R70). -/
def locAt (win : Window) (off : Nat) : Loc :=
  match win with
  | .reg => regLoc off
  | .pay => .payWord (off / 8)
  | .bitbuf => .bitbufWord (off / 8)
  | .out => .outWord (off / 8)

/-- What the block makes of an address and a width. -/
inductive Target where
  /-- In none of the four windows (20_memory R67). -/
  | outside
  /-- Not 64 bits wide, or not at a multiple of 8 (20_memory R67). -/
  | refused
  | loc (l : Loc)
  deriving DecidableEq, Repr

/-- The target of an access (20_memory R66, R67). -/
def busTarget (p : Params) (a : BusAddr) (bytes : Nat) : Target :=
  match locate p a with
  | none => .outside
  | some (win, off) => if Access.wellFormed off bytes then .loc (locAt win off) else .refused

/-! ### Reading -/

/-- The value of a location while SEQ is IDLE (10_state R27 to R40, 20_memory R61). No read has a side
effect (20_memory R69). -/
def State.readLoc (s : State) : Loc → Word
  | .cmd => 0#64
  | .status => s.status
  | .errInfo => s.errInfo
  | .nodeCount => s.nodeCount.setWidth 64
  | .payLen => s.payLen
  | .bitCount => s.bitCount
  | .symCount => s.symCount
  | .outLen => s.outLen
  | .reserved => 0#64
  | .freq v => s.freq.read v
  | .nodeWord k => s.node.read k
  | .payWord n => readLanes s.pay n
  | .bitbufWord n => readLanes s.bitbuf n
  | .outWord n => readLanes s.out n

/-- A host read: while a command runs, any location but STATUS answers a free value (20_memory R71).
DEDUCED for CMD and the reserved offsets (log entry 7), safe. -/
def State.hostRead (s : State) (l : Loc) : State :=
  if s.seq.isBusy && decide (l ≠ .status) then
    { s with lastRead := some (Config.freeBits 64 s.draw 0), draw := s.draw + 1 }
  else { s with lastRead := some (s.readLoc l) }

/-! ### Writing -/

/-- A host write, to a location other than CMD, while SEQ is IDLE (10_state R27 to R40, 20_memory R61). -/
def State.writeLoc (s : State) (l : Loc) (v : Word) : State :=
  match l with
  | .cmd => s
  | .status => s.acknowledge v
  | .errInfo => s
  | .nodeCount => { s with nodeCount := v.setWidth 10 }
  | .payLen => { s with payLen := v }
  | .bitCount => { s with bitCount := v }
  | .symCount => { s with symCount := v }
  | .outLen => s
  | .reserved => s
  | .freq i => { s with freq := s.freq.write i v }
  | .nodeWord k => { s with node := s.node.write k v }
  | .payWord n => { s with pay := writeLanes s.pay n v }
  | .bitbufWord n => { s with bitbuf := writeLanes s.bitbuf n v }
  | .outWord n => { s with out := writeLanes s.out n v }

/-! ### Accepting a command -/

/-- The working values a command starts from (10_state R25). They stand until the command's one step: DEDUCED (log
entry 5), safe. -/
def Work.start (i : Instr) (s : State) : Work :=
  match i with
  | .build => .build (BuildWork.start (leafNodes s.freqTable).length)
  | .encode => .encode EncodeWork.start
  | .decode => .decode (DecodeWork.start s.root)

/-- The command is accepted: SEQ becomes `BUSY(op)` (30_encoding R90). -/
def State.accept (s : State) (i : Instr) : State :=
  { s with seq := .busy i, work := Work.start i s }

/-- An illegal command word: ILLEGAL_COMMAND kind 10 with bits 59:0 of the word, no other state changed
(30_encoding R90, R96). -/
def State.rejectCommand (s : State) (w : Word) : State :=
  s.raise .illegalWord (w.extractLsb' 0 60).toNat

/-- The pending act that comes next lands before the running command ends. -/
def nextIsEarly : List HostEvent → Bool
  | [] => false
  | e :: _ => e.early

end Sys2Proof.Machine
end

