-- ==== Sys2Proof/Machine/Sequencer.lean ====
section
/-! DEFINITION. What one step does: the end of the running command, or the outside's next act
(20_memory R72: host accesses one at a time in order, a command one atomic transition). -/

namespace Sys2Proof.Machine

/-- A word written to CMD while SEQ is IDLE (30_encoding R90): an illegal one ends at once; a command is
accepted and, unless the next act of the outside lands while it runs, runs to its end at once. -/
def presentCommand (s : State) (w : Word) : Host.Outcome State Fault Refusal :=
  match decode w with
  | .error _ => .next (s.rejectCommand w)
  | .ok i => if nextIsEarly s.host then .next (s.accept i) else exec i (s.accept i)

/-- A host write: ignored while a command runs (20_memory R71). -/
def hostWrite (s : State) (l : Loc) (v : Word) : Host.Outcome State Fault Refusal :=
  if s.seq.isBusy then .next s
  else
    match l with
    | .cmd => presentCommand s v
    | _ => .next (s.writeLoc l v)

/-- One act of the outside. -/
def perform (p : Params) (s : State) : HostAct → Host.Outcome State Fault Refusal
  | .reset => .next s.platformReset
  | .read a bytes =>
    match busTarget p a bytes with
    | .outside => .fault .outsideWindows
    | .refused => .refused .busError
    | .loc l => .next (s.hostRead l)
  | .write a bytes v =>
    match busTarget p a bytes with
    | .outside => .fault .outsideWindows
    | .refused => .refused .busError
    | .loc l => hostWrite s l v

/-- The outside's next act; with none pending an idle block stays as it is (60_exceptions R227). -/
def performNext (p : Params) (s : State) : Host.Outcome State Fault Refusal :=
  match s.host with
  | [] => .next s
  | e :: rest => perform p { s with host := rest } e.act

/-- One step. A running command ends now unless the next act of the outside lands before its end
(30_encoding R90); else the outside's next act is performed. DESIGN CHOICE (log entry 3), safe. -/
def advance (p : Params) (s : State) : Host.Outcome State Fault Refusal :=
  match s.seq with
  | .idle => performNext p s
  | .busy i => if nextIsEarly s.host then performNext p s else exec i s

/-- The host's write of a command word to CMD, with nothing of the outside's landing while it runs. -/
def commandWrite (w : Word) : HostEvent :=
  { early := false, act := .write (.at .reg 0x0000) 8 w }

/-- An idle block whose next act is the write of the word to CMD. -/
def State.withCommand (s : State) (w : Word) : State :=
  { s with seq := .idle, work := .dead, host := [commandWrite w] }

end Sys2Proof.Machine
end

