-- ==== Sys2Proof/Machine/Step.lean ====
section
/-! DEFINITION. The step of the block, and placing a command where the next step takes it. -/

namespace Sys2Proof.Machine

/-- One step: a host access, or a command as a whole (20_memory R72). -/
def step (s : State) : Host.Outcome State Fault Refusal := advance Config.platform s

/-- The state with a command word about to be written to CMD. The block fetches no instructions
(10_state R24): a command reaches it by that write alone (30_encoding R90). DESIGN CHOICE (log entry
11), safe. -/
def State.withFetchWord (s : State) (nbits w : Nat) : State :=
  s.withCommand (BitVec.ofNat 64 (w % 2 ^ nbits))

end Sys2Proof.Machine
end

