-- ==== Sys2Proof/Safety.lean ====
section
/-! DEFINITION. What the claims mean by a well-kept state and by a host access the block takes. -/

namespace Sys2Proof.Machine

/-- Every memory in its canonical form, listing nothing outside its size (20_memory R60). -/
abbrev State.memoriesOk (p : Params) (s : State) : Prop :=
  (s.freq.wf ∧ s.freq.within 256) ∧ (s.node.wf ∧ s.node.within 1022) ∧ (s.pay.wf ∧ s.pay.within p.payMax) ∧
    (s.bitbuf.wf ∧ s.bitbuf.within p.bitbufMax) ∧ (s.out.wf ∧ s.out.within p.outMax)

/-- CC in its canonical form: entries for byte values only, paths of at most 510 bits (10_state R41). -/
abbrev Cache.ok : Cache → Prop
  | .known entries => cellsRising entries ∧ cellsBelow 256 entries ∧ ∀ x ∈ entries, x.2.length ≤ 510
  | .unspecified => True

/-- The draw numbers the memories' unspecified contents come from. -/
def State.draws (s : State) : List Nat :=
  [s.freq.draw, s.node.draw, s.pay.draw, s.bitbuf.draw, s.out.draw]

/-- No two memories share a draw, and the next draw is none of theirs. -/
abbrev State.drawsOk (s : State) : Prop := s.draws.Nodup ∧ ∀ d ∈ s.draws, d < s.draw

/-- The working values are dead exactly while SEQ is IDLE, and while a command runs they are those it starts
from on the state it was accepted in, which cannot change meanwhile (10_state R25, 20_memory R71). -/
def State.workOk (s : State) : Prop :=
  match s.seq with
  | .idle => s.work = .dead
  | .busy i => s.work = Work.start i s

/-- RESULT and ERR_INFO belong together: ERR_INFO is 0 unless RESULT is a fault, and then its KIND is one of
that RESULT (60_exceptions R212, R214, R215). -/
def State.outcomeOk (s : State) : Prop :=
  (s.result.isFault = false ∧ s.errInfo = 0#64) ∨
    ∃ (kind : FaultKind) (value : Nat), s.result = kind.result ∧ s.errInfo = errInfoOf kind value

/-- The invariant of the machine. -/
def State.Inv (s : State) : Prop :=
  s.memoriesOk Config.platform ∧ s.cc.ok ∧ s.drawsOk ∧ s.workOk ∧ s.outcomeOk ∧
    s.outLen.toNat ≤ Config.platform.outMax

/-- An act of the outside that the block takes: reset, or a 64-bit access at a multiple of 8 inside a window
(20_memory R66). -/
def HostAct.taken (p : Params) : HostAct → Prop
  | .reset => True
  | .read a bytes => ∃ l, busTarget p a bytes = .loc l
  | .write a bytes _ => ∃ l, busTarget p a bytes = .loc l

/-- `p` leads from node `i` to a leaf carrying `b`: each bit is taken at a branch, and the walk ends at the
leaf (00_scope R14, "Bit path"). -/
def isPath (node : Memory 64) : (i : Nat) → (p : Path) → (b : Byte) → Prop
  | i, [], b => tagField (nodeWord0 node i) = false ∧ byteField (nodeWord0 node i) = b
  | i, x :: p, b => tagField (nodeWord0 node i) = true ∧ isPath node (childOf node i x) p b

/-- The stream of the first `n` payload bytes without any cache: the paths one after another, or none if
one is missing (30_encoding R95, 41_encode R155). -/
def State.payloadBits (s : State) : (n : Nat) → Option Path
  | 0 => some []
  | n + 1 =>
    match s.payloadBits n, s.findRootPath (s.pay.read n) with
    | some bits, some p => some (bits ++ p)
    | _, _ => none

/-- `L`, the number of non-zero frequencies (40_build R120). -/
def State.leafCount (s : State) : Nat := (s.freqTable.filter (fun f => f != 0#64)).length

/-- The sum of all 256 frequencies (40_build R126). -/
def State.freqTotal (s : State) : Nat := (s.freqTable.map BitVec.toNat).sum

/-- The node array after the first `k` merge steps of a BUILD from this table, or what one of them raises
(40_build R125). -/
def State.mergeSteps (s : State) (k : Nat) : Except (FaultKind × Nat) (List Node) :=
  mergeLoop true k (leafNodes s.freqTable) (BuildWork.start s.leafCount)

/-- BUILD makes a tree of this table: at least one leaf, and no sum that reaches 2^64, which only two or
more leaves can bring about (40_build R122, R126). -/
abbrev State.buildable (s : State) : Prop := 1 ≤ s.leafCount ∧ (s.leafCount = 1 ∨ s.freqTotal < 2 ^ 64)

/-- `NODE[i].freq`, word 1 of the entry (30_encoding R92). -/
def nodeFreq (node : Memory 64) (i : Nat) : Word := node.read (2 * i + 1)

/-- The step answers a next state: the run goes on. -/
def State.goesOn (s : State) : Prop := ∃ t, step s = .next t

end Sys2Proof.Machine
end

