-- ==== Sys2Proof/Certificates/Slice0/Obligations.lean ====
section
/-! DEFINITION. The statements for the provers, one def per obligation, from the numbered rules of spec/. -/

open Sys2Proof Sys2Proof.Machine

/-! ### Reset -/

/-- 10_state R43 for the registers, SEQ, the working values and CC. The last clause is the model's choice (log
entries 1 and 2): where R43 leaves the memories' contents unspecified, each entry is the free value of a draw,
about which nothing can be proved. -/
def Obligations.ResetIsIdleWithRegistersZero : Prop :=
  (State.reset.seq = .idle ∧ State.reset.work = .dead ∧ State.reset.status = 0#64 ∧ State.reset.errInfo = 0#64 ∧
    State.reset.nodeCount = 0#10 ∧ State.reset.payLen = 0#64 ∧ State.reset.bitCount = 0#64 ∧
    State.reset.symCount = 0#64 ∧ State.reset.outLen = 0#64) ∧
  (∀ v, ∀ entries, State.reset.cc = .known entries → cellsGet entries v = none) ∧ State.reset.cc ≠ .unspecified ∧
  (∀ a, State.reset.freq.read a = Config.freeBits 64 0 a ∧ State.reset.node.read a = Config.freeBits 64 1 a ∧
    State.reset.pay.read a = Config.freeBits 8 2 a ∧ State.reset.bitbuf.read a = Config.freeBits 8 3 a ∧
    State.reset.out.read a = Config.freeBits 8 4 a)

/-- 70_reset_and_hazards R240, R241: asserted while the block is idle, or landing before the end of the running
command, whatever else is pending. That the unspecified contents are fresh draws (log entries 1 and 2) and that `host` and
`lastRead` stay (log entry 13) is the model's choice. -/
def Obligations.PlatformResetAbandonsEverything : Prop :=
  ∀ (s : State) (e : HostEvent) (rest : List HostEvent),
    s.host = e :: rest → e.act = .reset → (s.seq = .idle ∨ e.early = true) →
    ∃ t, step s = .next t ∧ t.seq = .idle ∧ t.work = .dead ∧ t.status = 0#64 ∧ t.errInfo = 0#64 ∧
      t.nodeCount = 0#10 ∧ t.payLen = 0#64 ∧ t.bitCount = 0#64 ∧ t.symCount = 0#64 ∧ t.outLen = 0#64 ∧
      t.cc = .known [] ∧ t.host = rest ∧ t.lastRead = s.lastRead ∧
      (∀ a, t.freq.read a = Config.freeBits 64 s.draw a ∧ t.node.read a = Config.freeBits 64 (s.draw + 1) a ∧
        t.pay.read a = Config.freeBits 8 (s.draw + 2) a ∧ t.bitbuf.read a = Config.freeBits 8 (s.draw + 3) a ∧
        t.out.read a = Config.freeBits 8 (s.draw + 4) a)

/-! ### Encodings -/

/-- 30_encoding R98: a word is a command exactly when it equals that command's one word. -/
def Obligations.CommandWordsAreExactlyThree : Prop :=
  (∀ w : Word, decode w = .ok .build ↔ w = 0x0000000000000001#64) ∧
  (∀ w : Word, decode w = .ok .encode ↔ w = 0x0000000000000002#64) ∧
  (∀ w : Word, decode w = .ok .decode ↔ w = 0x0000000000000003#64) ∧
  (∀ (w : Word) (i : Instr), decode w = .ok i ↔ w = encode i) ∧
  (∀ w : Word, CommandWord.wellFormed w = true ↔ ∃ i, decode w = .ok i)

/-- 30_encoding R91, R96: the words of the opcode table and a few illegal ones, written out. -/
def Obligations.SpecWordsDecode : Prop :=
  decode 0b0000000000000000000000000000000000000000000000000000000000000001#64 = .ok .build ∧
  decode 0b0000000000000000000000000000000000000000000000000000000000000010#64 = .ok .encode ∧
  decode 0b0000000000000000000000000000000000000000000000000000000000000011#64 = .ok .decode ∧
  decode 0x0000000000000000#64 = .error .reservedOpcode ∧
  decode 0x0000000000000004#64 = .error .reservedOpcode ∧
  decode 0x0000000000000101#64 = .error .reservedBits ∧
  decode 0x8000000000000002#64 = .error .reservedBits

/-- 30_encoding R92, R93: the words of the two records, what their fields read back as, and that the words
that pass `RecordOK(i)` are exactly the words of the records with children below `i`. -/
def Obligations.NodeRecordRoundTrip : Prop :=
  (∀ (v : Byte) (f : Word), (Node.leaf v f).word0 = BitVec.ofNat 64 (v.toNat * 2 ^ 8) ∧
    tagField (Node.leaf v f).word0 = false ∧ byteField (Node.leaf v f).word0 = v ∧
    leftField (Node.leaf v f).word0 = 0 ∧ rightField (Node.leaf v f).word0 = 0 ∧
    ∀ i, recordOk i (Node.leaf v f).word0 = true) ∧
  (∀ (l r : Nat) (f : Word), l < 512 → r < 512 →
    (Node.branch l r f).word0 = BitVec.ofNat 64 (1 + l * 2 ^ 16 + r * 2 ^ 32) ∧
    tagField (Node.branch l r f).word0 = true ∧ byteField (Node.branch l r f).word0 = 0#8 ∧
    leftField (Node.branch l r f).word0 = l ∧ rightField (Node.branch l r f).word0 = r ∧
    ∀ i, (recordOk i (Node.branch l r f).word0 = true ↔ l < i ∧ r < i)) ∧
  (∀ (i : Nat) (w : Word), recordOk i w = true →
    ∃ n : Node, n.word0 = w ∧ (∀ l r f, n = .branch l r f → l < i ∧ r < i))

/-- 10_state R29, R30; 60_exceptions R210, R212: the fields of STATUS and ERR_INFO, the reserved bits zero; the
codes of RESULT, which of them are faults, the codes of KIND, and the RESULT each KIND determines. -/
def Obligations.StatusAndErrInfoFields : Prop :=
  (∀ s : State, s.status.getLsbD 0 = s.seq.isBusy ∧ s.status.getLsbD 1 = s.fault ∧
    s.status.extractLsb' 2 6 = 0#6 ∧ s.status.extractLsb' 8 8 = s.result.code ∧
    s.status.extractLsb' 16 48 = 0#48) ∧
  (∀ (k : FaultKind) (v : Nat), v < 2 ^ 60 →
    (errInfoOf k v).extractLsb' 60 4 = k.code ∧ ((errInfoOf k v).extractLsb' 0 60).toNat = v) ∧
  (ResultCode.ok.code = 0x00#8 ∧ ResultCode.emptyInput.code = 0x01#8 ∧
    ResultCode.allocationFailure.code = 0x02#8 ∧ ResultCode.treeConstructionFailure.code = 0x03#8 ∧
    ResultCode.treeError.code = 0x04#8 ∧ ResultCode.decodeError.code = 0x05#8 ∧
    ResultCode.illegalCommand.code = 0x06#8) ∧
  (∀ r : ResultCode, r.isFault = true ↔ r ≠ .ok ∧ r ≠ .emptyInput) ∧
  (FaultKind.frequencySum.code = 1#4 ∧ FaultKind.nodeCountRange.code = 2#4 ∧
    FaultKind.nodeNotCanonical.code = 3#4 ∧ FaultKind.noPath.code = 4#4 ∧ FaultKind.payloadTooLong.code = 5#4 ∧
    FaultKind.streamTooLong.code = 6#4 ∧ FaultKind.outputTooLong.code = 7#4 ∧
    FaultKind.bitCountTooLarge.code = 8#4 ∧ FaultKind.bitsExhausted.code = 9#4 ∧
    FaultKind.illegalWord.code = 10#4 ∧ FaultKind.cursorsExhausted.code = 11#4) ∧
  (FaultKind.frequencySum.result = .treeConstructionFailure ∧ FaultKind.nodeCountRange.result = .treeError ∧
    FaultKind.nodeNotCanonical.result = .treeError ∧ FaultKind.noPath.result = .treeError ∧
    FaultKind.payloadTooLong.result = .allocationFailure ∧ FaultKind.streamTooLong.result = .allocationFailure ∧
    FaultKind.outputTooLong.result = .allocationFailure ∧ FaultKind.bitCountTooLarge.result = .allocationFailure ∧
    FaultKind.bitsExhausted.result = .decodeError ∧ FaultKind.illegalWord.result = .illegalCommand ∧
    FaultKind.cursorsExhausted.result = .treeConstructionFailure)

/-! ### The step -/

/-- 30_encoding R90, 20_memory R72: a command word written to CMD of an idle block is decoded at once; the
command runs to its end in the same step, unless the outside's next act lands while it runs. -/
def Obligations.StepRunsTheDecodedCommand : Prop :=
  ∀ (s : State) (a : BusAddr) (w : Word) (e : Bool) (rest : List HostEvent) (i : Instr),
    s.seq = .idle → s.host = { early := e, act := .write a 8 w } :: rest →
    busTarget Config.platform a 8 = .loc .cmd → decode w = .ok i →
    step s = if nextIsEarly rest then .next (({ s with host := rest } : State).accept i)
      else exec i (({ s with host := rest } : State).accept i)

/-- 30_encoding R90: the end of a running command may fall at any point after acceptance: at once, or after
the accesses that land while it runs. -/
def Obligations.RunningCommandEndsInOneStep : Prop :=
  ∀ (s : State) (i : Instr), s.seq = .busy i → nextIsEarly s.host = false → step s = exec i s

/-- 30_encoding R96: any other word ends at once with ILLEGAL_COMMAND, nothing else changed (an idle block's
working values are dead, log entry 5). -/
def Obligations.IllegalWordIsRejected : Prop :=
  ∀ (s : State) (a : BusAddr) (w : Word) (e : Bool) (rest : List HostEvent),
    s.seq = .idle → s.workOk → s.host = { early := e, act := .write a 8 w } :: rest →
    busTarget Config.platform a 8 = .loc .cmd →
    w ≠ 0x0000000000000001#64 → w ≠ 0x0000000000000002#64 → w ≠ 0x0000000000000003#64 →
    ∃ t, step s = .next t ∧
      t = { s with host := rest, result := .illegalCommand, errInfo := t.errInfo, fault := true } ∧
      t.errInfo.extractLsb' 60 4 = 10#4 ∧ t.errInfo.extractLsb' 0 60 = w.extractLsb' 0 60

/-- 60_exceptions R227, R218: an idle block that the outside leaves alone changes no state. -/
def Obligations.IdleIsQuiescent : Prop :=
  ∀ s : State, s.seq = .idle → s.host = [] → step s = .next s

/-- 70_reset_and_hazards R262: every command, from every state, ends, idle again; no command stops the
machine. -/
def Obligations.EveryCommandEnds : Prop :=
  ∀ (i : Instr) (s : State), ∃ t, exec i s = .next t ∧ t.seq = .idle ∧ t.work = .dead ∧
    t.host = s.host ∧ t.lastRead = s.lastRead

/-- 20_memory R66, R67: the only way a run stops is an access the block does not take. -/
def Obligations.OnlyAnUntakenAccessStops : Prop :=
  ∀ s : State, (∀ e ∈ s.host.head?, e.act.taken Config.platform) → s.goesOn

/-- 60_exceptions R213: which command can end with which outcome and kind. -/
def Obligations.CommandsEndWithTheirOutcomes : Prop :=
  ∀ s : State,
    (∃ t, exec .build s = .next t ∧
      ((t.result = .ok ∨ t.result = .emptyInput) ∧ t.errInfo = 0#64 ∨
        ∃ v, t.result = .treeConstructionFailure ∧ t.errInfo = errInfoOf .frequencySum v)) ∧
    (∃ t, exec .encode s = .next t ∧
      (t.result = .ok ∧ t.errInfo = 0#64 ∨
        ∃ kind v, t.result = kind.result ∧ t.errInfo = errInfoOf kind v ∧
          (kind = .payloadTooLong ∨ kind = .streamTooLong ∨ kind = .nodeCountRange ∨ kind = .nodeNotCanonical ∨
            kind = .noPath))) ∧
    (∃ t, exec .decode s = .next t ∧
      (t.result = .ok ∧ t.errInfo = 0#64 ∨
        ∃ kind v, t.result = kind.result ∧ t.errInfo = errInfoOf kind v ∧
          (kind = .outputTooLong ∨ kind = .bitCountTooLarge ∨ kind = .nodeCountRange ∨ kind = .nodeNotCanonical ∨
            kind = .bitsExhausted)))

/-- 10_state R26, 60_exceptions R220: FAULT gates nothing: a command runs the same with it set, and leaves it
set. -/
def Obligations.FaultGatesNothing : Prop :=
  ∀ (i : Instr) (s : State), ∃ t, exec i { s with fault := false } = .next t ∧
    exec i { s with fault := true } = .next { t with fault := true }

/-! ### Host accesses -/

/-- 20_memory R71: accesses while a command runs. The draw a read of another location takes is the model's (log
entry 7). -/
def Obligations.AccessesWhileBusy : Prop :=
  ∀ (s : State) (a : BusAddr) (l : Loc) (i : Instr) (rest : List HostEvent),
    s.seq = .busy i → busTarget Config.platform a 8 = .loc l →
    (∀ v : Word, s.host = { early := true, act := .write a 8 v } :: rest →
      step s = .next { s with host := rest }) ∧
    (s.host = { early := true, act := .read a 8 } :: rest →
      step s = if l = .status then .next { s with host := rest, lastRead := some s.status }
        else .next { s with host := rest, lastRead := some (Config.freeBits 64 s.draw 0), draw := s.draw + 1 }) ∧
    s.status.getLsbD 0 = true

/-- 10_state R27 to R36, 20_memory R61, R65, R69: what a read of each location of an idle block answers; it
changes nothing else. -/
def Obligations.RegisterMapReads : Prop :=
  ∀ (s : State) (off : Nat) (v : Word) (e : Bool) (rest : List HostEvent),
    s.seq = .idle → s.host = { early := e, act := .read (.at .reg off) 8 } :: rest →
    ((off = 0x0000 ∧ v = 0#64) ∨ (off = 0x0008 ∧ v = s.status) ∨ (off = 0x0010 ∧ v = s.errInfo) ∨
      (off = 0x0018 ∧ v = s.nodeCount.setWidth 64) ∨ (off = 0x0020 ∧ v = s.payLen) ∨
      (off = 0x0028 ∧ v = s.bitCount) ∨ (off = 0x0030 ∧ v = s.symCount) ∨ (off = 0x0038 ∧ v = s.outLen) ∨
      (∃ k, off = 8 * k ∧ 0x0040 ≤ off ∧ off ≤ 0x07F8 ∧ v = 0#64) ∨
      (∃ b, b < 256 ∧ off = 0x0800 + 8 * b ∧ v = s.freq.read b) ∨
      (∃ k, off = 8 * k ∧ 0x1000 ≤ off ∧ off ≤ 0x1FF8 ∧ v = 0#64) ∨
      (∃ i, i < 511 ∧ off = 0x2000 + 16 * i ∧ v = s.node.read (2 * i)) ∨
      (∃ i, i < 511 ∧ off = 0x2008 + 16 * i ∧ v = s.node.read (2 * i + 1)) ∨
      (off = 0x3FF0 ∧ v = 0#64) ∨ (off = 0x3FF8 ∧ v = 0#64)) →
    step s = .next { s with host := rest, lastRead := some v }

/-- 10_state R27 to R36, 20_memory R65, R72 (a): what a write to each location of an idle block does. A FREQ entry
and a word of a NODE entry read as written afterwards, and every other entry or word as before. A write to CMD is
the subject of the two statements about commands. -/
def Obligations.RegisterMapWrites : Prop :=
  ∀ (s : State) (off : Nat) (v : Word) (e : Bool) (rest : List HostEvent),
    s.seq = .idle → s.host = { early := e, act := .write (.at .reg off) 8 v } :: rest →
    off % 8 = 0 → 0x0008 ≤ off → off ≤ 0x3FF8 →
    ∃ t, step s = .next t ∧
      (off = 0x0008 → t = { s with host := rest, fault := s.fault && !v.getLsbD 1 }) ∧
      (off = 0x0018 → t = { s with host := rest, nodeCount := v.extractLsb' 0 10 }) ∧
      (off = 0x0020 → t = { s with host := rest, payLen := v }) ∧
      (off = 0x0028 → t = { s with host := rest, bitCount := v }) ∧
      (off = 0x0030 → t = { s with host := rest, symCount := v }) ∧
      (off = 0x0010 ∨ off = 0x0038 ∨ (0x0040 ≤ off ∧ off ≤ 0x07F8) ∨ (0x1000 ≤ off ∧ off ≤ 0x1FF8) ∨ 0x3FF0 ≤ off →
        t = { s with host := rest }) ∧
      (∀ b < 256, off = 0x0800 + 8 * b → t = { s with host := rest, freq := t.freq } ∧
        ∀ u, t.freq.read u = if u = b then v else s.freq.read u) ∧
      (∀ i < 511, off = 0x2000 + 16 * i → t = { s with host := rest, node := t.node } ∧
        ∀ k, t.node.read k = if k = 2 * i then v else s.node.read k) ∧
      (∀ i < 511, off = 0x2008 + 16 * i → t = { s with host := rest, node := t.node } ∧
        ∀ k, t.node.read k = if k = 2 * i + 1 then v else s.node.read k)

/-- 20_memory R61: a 64-bit write to a buffer window replaces the eight bytes of its word, lowest index in the
least significant lane, and no other byte; a read returns the eight. -/
def Obligations.BufferWordsAreLittleEndianLanes : Prop :=
  ∀ (s : State) (v : Word) (e : Bool) (rest : List HostEvent) (n : Nat), s.seq = .idle →
    (8 * n + 8 ≤ Config.platform.payMax →
      s.host = { early := e, act := .write (.at .pay (8 * n)) 8 v } :: rest →
      ∃ t, step s = .next t ∧ t = { s with host := rest, pay := t.pay } ∧
        ∀ a, t.pay.read a = if a / 8 = n then v.extractLsb' (8 * (a % 8)) 8 else s.pay.read a) ∧
    (8 * n + 8 ≤ Config.platform.bitbufMax →
      s.host = { early := e, act := .write (.at .bitbuf (8 * n)) 8 v } :: rest →
      ∃ t, step s = .next t ∧ t = { s with host := rest, bitbuf := t.bitbuf } ∧
        ∀ a, t.bitbuf.read a = if a / 8 = n then v.extractLsb' (8 * (a % 8)) 8 else s.bitbuf.read a) ∧
    (8 * n + 8 ≤ Config.platform.outMax →
      s.host = { early := e, act := .write (.at .out (8 * n)) 8 v } :: rest →
      ∃ t, step s = .next t ∧ t = { s with host := rest, out := t.out } ∧
        ∀ a, t.out.read a = if a / 8 = n then v.extractLsb' (8 * (a % 8)) 8 else s.out.read a) ∧
    (8 * n + 8 ≤ Config.platform.payMax → s.host = { early := e, act := .read (.at .pay (8 * n)) 8 } :: rest →
      ∃ x : Word, step s = .next { s with host := rest, lastRead := some x } ∧
        ∀ m < 8, x.extractLsb' (8 * m) 8 = s.pay.read (8 * n + m)) ∧
    (8 * n + 8 ≤ Config.platform.bitbufMax →
      s.host = { early := e, act := .read (.at .bitbuf (8 * n)) 8 } :: rest →
      ∃ x : Word, step s = .next { s with host := rest, lastRead := some x } ∧
        ∀ m < 8, x.extractLsb' (8 * m) 8 = s.bitbuf.read (8 * n + m)) ∧
    (8 * n + 8 ≤ Config.platform.outMax → s.host = { early := e, act := .read (.at .out (8 * n)) 8 } :: rest →
      ∃ x : Word, step s = .next { s with host := rest, lastRead := some x } ∧
        ∀ m < 8, x.extractLsb' (8 * m) 8 = s.out.read (8 * n + m))

/-- 20_memory R70, 00_scope R8: a platform address inside a window is that window's base plus the offset,
whichever allowed parameters the platform has. -/
def Obligations.PlatformAddressesNameTheirWindow : Prop :=
  ∀ (p : Params) (win : Window) (off : Nat), p.valid → off < p.windowSize win →
    locate p (.abs (p.windowBase win + off)) = some (win, off) ∧ locate p (.at win off) = some (win, off)

/-- 20_memory R67: an access of another width or alignment is refused, one outside the windows is none of the
block's. -/
def Obligations.UntakenAccessesAreRefused : Prop :=
  ∀ (s : State) (a : BusAddr) (bytes : Nat) (v : Word) (e : HostEvent) (rest : List HostEvent),
    s.host = e :: rest → (s.seq = .idle ∨ e.early = true) → (e.act = .read a bytes ∨ e.act = .write a bytes v) →
    (locate Config.platform a = none → step s = .fault .outsideWindows) ∧
    (∀ win off, locate Config.platform a = some (win, off) → (bytes ≠ 8 ∨ off % 8 ≠ 0) →
      step s = .refused .busError)

/-- 60_exceptions R219: FAULT stays 1 until the host acknowledges it while SEQ is IDLE, or until reset. -/
def Obligations.OnlyAcknowledgeOrResetClearsFault : Prop :=
  ∀ s t : State, s.fault = true → step s = .next t → t.fault = false →
    ∃ e rest, s.host = e :: rest ∧
      (e.act = .reset ∨
        (s.seq = .idle ∧ ∃ a v, e.act = .write a 8 v ∧ busTarget Config.platform a 8 = .loc .status ∧
          v.getLsbD 1 = true))

/-! ### BUILD -/

/-- 10_state R23, 40_build R127: what BUILD leaves alone, and the parts of NODE it does not write. -/
def Obligations.BuildFrame : Prop :=
  ∀ s : State, ∃ t, exec .build s = .next t ∧ t.seq = .idle ∧ t.work = .dead ∧ t.freq = s.freq ∧ t.pay = s.pay ∧
    t.payLen = s.payLen ∧ t.bitbuf = s.bitbuf ∧ t.bitCount = s.bitCount ∧ t.symCount = s.symCount ∧
    t.out = s.out ∧ t.outLen = s.outLen ∧ t.host = s.host ∧ t.lastRead = s.lastRead ∧ t.cc = .known [] ∧
    (t.result.isFault = false → t.fault = s.fault ∧ t.errInfo = 0#64 ∧ t.draw = s.draw ∧
      ∀ k, 2 * t.nodeCount.toNat ≤ k → t.node.read k = s.node.read k) ∧
    (t.result.isFault = true → t.fault = true ∧ t.nodeCount = 0#10)

/-- 40_build R121: the empty input. -/
def Obligations.BuildOfNothing : Prop :=
  ∀ s : State, (∀ v < 256, s.freq.read v = 0#64) →
    exec .build s = .next { s with
      cc := .known [], nodeCount := 0#10, result := .emptyInput, errInfo := 0#64, seq := .idle, work := .dead }

/-- 40_build R122: one leaf, whatever its frequency. -/
def Obligations.BuildOfOneLeaf : Prop :=
  ∀ (s : State) (v : Nat) (f : Word), v < 256 → f ≠ 0#64 → s.freq.read v = f →
    (∀ u < 256, u ≠ v → s.freq.read u = 0#64) →
    exec .build s = .next { s with
      cc := .known [], node := (s.node.write 0 (BitVec.ofNat 64 (v * 256))).write 1 f, nodeCount := 1#10,
      result := .ok, errInfo := 0#64, seq := .idle, work := .dead }

/-- 40_build R123: the leaf segment holds one leaf for each non-zero entry, ordered by frequency, then by byte
value. -/
def Obligations.BuildSortsTheLeaves : Prop :=
  ∀ s : State, s.buildable → ∃ t, exec .build s = .next t ∧
    (∀ i < s.leafCount, tagField (nodeWord0 t.node i) = false ∧ nodeFreq t.node i ≠ 0#64 ∧
      nodeFreq t.node i = s.freq.read (byteField (nodeWord0 t.node i)).toNat) ∧
    (∀ v < 256, s.freq.read v ≠ 0#64 → ∃ i < s.leafCount, byteField (nodeWord0 t.node i) = BitVec.ofNat 8 v) ∧
    (∀ i j, i < j → j < s.leafCount →
      (nodeFreq t.node i).toNat < (nodeFreq t.node j).toNat ∨
        (nodeFreq t.node i = nodeFreq t.node j ∧
          (byteField (nodeWord0 t.node i)).toNat < (byteField (nodeWord0 t.node j)).toNat))

/-- 40_build R127: completion. -/
def Obligations.BuildCompletes : Prop :=
  ∀ s : State, s.buildable → ∃ t, exec .build s = .next t ∧ t.result = .ok ∧ t.errInfo = 0#64 ∧
    t.fault = s.fault ∧ t.nodeCount.toNat = 2 * s.leafCount - 1 ∧ t.root = 2 * s.leafCount - 2 ∧ t.freq = s.freq ∧
    ∀ k, 2 * (2 * s.leafCount - 1) ≤ k → t.node.read k = s.node.read k

/-- 40_build R128 (b), (c): leaves below L, branches from L on, every record canonical, so that the array
passes TreeCheck. -/
def Obligations.BuildWritesCanonicalRecords : Prop :=
  ∀ s : State, s.buildable → ∃ t, exec .build s = .next t ∧ treeCheck t = none ∧
    (∀ i < s.leafCount, tagField (nodeWord0 t.node i) = false) ∧
    (∀ i, s.leafCount ≤ i → i < 2 * s.leafCount - 1 → tagField (nodeWord0 t.node i) = true ∧
      leftField (nodeWord0 t.node i) < i ∧ rightField (nodeWord0 t.node i) < i) ∧
    (∀ i < 2 * s.leafCount - 1, recordOk i (nodeWord0 t.node i) = true)

/-- 40_build R128 (d): every entry but the last is the child of exactly one branch, on one side of it, and the
last is the child of none. -/
def Obligations.BuildMakesATree : Prop :=
  ∀ s : State, s.buildable → ∃ t, exec .build s = .next t ∧
    (∀ j < 2 * s.leafCount - 2, ∃! i, (s.leafCount ≤ i ∧ i < 2 * s.leafCount - 1) ∧
      (leftField (nodeWord0 t.node i) = j ∨ rightField (nodeWord0 t.node i) = j)) ∧
    (∀ i, s.leafCount ≤ i → i < 2 * s.leafCount - 1 →
      leftField (nodeWord0 t.node i) ≠ rightField (nodeWord0 t.node i) ∧
      leftField (nodeWord0 t.node i) < 2 * s.leafCount - 2 ∧
      rightField (nodeWord0 t.node i) < 2 * s.leafCount - 2)

/-- 40_build R128 (e): every branch's frequency is the exact sum of its children's, the root's the sum of all
FREQ entries. -/
def Obligations.BuildSumsFrequencies : Prop :=
  ∀ s : State, s.buildable → ∃ t, exec .build s = .next t ∧
    (∀ i, s.leafCount ≤ i → i < 2 * s.leafCount - 1 →
      (nodeFreq t.node i).toNat = (nodeFreq t.node (leftField (nodeWord0 t.node i))).toNat +
        (nodeFreq t.node (rightField (nodeWord0 t.node i))).toNat) ∧
    (nodeFreq t.node t.root).toNat = s.freqTotal

/-- 40_build R130: the order invariants (I1) to (I4). -/
def Obligations.BuildKeepsTheOrder : Prop :=
  ∀ s : State, s.buildable → ∃ t, exec .build s = .next t ∧
    (∀ i j, i ≤ j → j < s.leafCount → (nodeFreq t.node i).toNat ≤ (nodeFreq t.node j).toNat) ∧
    (∀ i j, s.leafCount ≤ i → i ≤ j → j < 2 * s.leafCount - 1 →
      (nodeFreq t.node i).toNat ≤ (nodeFreq t.node j).toNat ∧
      (nodeFreq t.node (leftField (nodeWord0 t.node i))).toNat ≤ (nodeFreq t.node j).toNat ∧
      (nodeFreq t.node (rightField (nodeWord0 t.node i))).toNat ≤ (nodeFreq t.node j).toNat) ∧
    (∀ i, s.leafCount ≤ i → i < 2 * s.leafCount - 1 →
      (nodeFreq t.node (leftField (nodeWord0 t.node i))).toNat ≤
        (nodeFreq t.node (rightField (nodeWord0 t.node i))).toNat)

/-- 40_build R131: `Pick` never finds both cursors exhausted, whatever the table and the pick's side. -/
def Obligations.PickIsNeverExhausted : Prop :=
  ∀ (side : Bool) (table : List Word) (nf : Nat), buildTree side table ≠ .error (.cursorsExhausted, nf)

/-- 40_build R126: the fault is raised exactly when at least two entries are non-zero and all of them sum to
2^64 or more, and VALUE is the index the overflowing branch would have taken: the merge steps before it append
entries up to that index, and the next one raises. -/
def Obligations.BuildOverflowsExactly : Prop :=
  ∀ s : State, ∃ t, exec .build s = .next t ∧
    (t.result = .treeConstructionFailure ↔ 2 ≤ s.leafCount ∧ 2 ^ 64 ≤ s.freqTotal) ∧
    (t.result = .treeConstructionFailure →
      ∃ nf nodes, s.leafCount ≤ nf ∧ nf ≤ 2 * s.leafCount - 2 ∧ 2 ≤ nf ∧ nf ≤ 510 ∧
        s.mergeSteps (nf - s.leafCount) = .ok nodes ∧ nodes.length = nf ∧
        s.mergeSteps (nf - s.leafCount + 1) = .error (.frequencySum, nf) ∧ t.errInfo = errInfoOf .frequencySum nf)

/-- 40_build R129: the effects of a BUILD that ends with a fault. The contents of NODE become the free values
of a fresh draw (log entry 9). -/
def Obligations.BuildFaultEffects : Prop :=
  ∀ s : State, 2 ≤ s.leafCount → 2 ^ 64 ≤ s.freqTotal → ∃ t, exec .build s = .next t ∧
    t = { s with
      cc := .known [], nodeCount := 0#10, node := Memory.unwritten 64 s.draw, draw := s.draw + 1,
      result := .treeConstructionFailure, errInfo := t.errInfo, fault := true, seq := .idle, work := .dead }

/-- 40_build R132: the result is a function of the 256 FREQ values (FIRST_PICK_LEFT being fixed). -/
def Obligations.BuildIsDeterminedByFreq : Prop :=
  ∀ s₁ s₂ : State, (∀ v < 256, s₁.freq.read v = s₂.freq.read v) →
    ∃ t₁ t₂, exec .build s₁ = .next t₁ ∧ exec .build s₂ = .next t₂ ∧ t₁.result = t₂.result ∧
      t₁.errInfo = t₂.errInfo ∧ t₁.nodeCount = t₂.nodeCount ∧
      ∀ k < 2 * t₁.nodeCount.toNat, t₁.node.read k = t₂.node.read k

/-! ### The tree of a command -/

/-- 41_encode R152: what TreeCheck asks, and what ENCODE and DECODE do where it fails: the lowest offending
index is reported. The free contents left are the model's form of R159 and R188 (log entries 9, 10). -/
def Obligations.TreeCheckRaises : Prop :=
  (∀ s : State, treeCheck s = none ↔
    1 ≤ s.nodeCount.toNat ∧ s.nodeCount.toNat ≤ 511 ∧
      ∀ i < s.nodeCount.toNat, recordOk i (nodeWord0 s.node i) = true) ∧
  (∀ (s : State) (kind : FaultKind) (value : Nat),
    ((s.nodeCount.toNat = 0 ∨ 511 < s.nodeCount.toNat) ∧ kind = .nodeCountRange ∧ value = s.nodeCount.toNat) ∨
      (s.nodeCount.toNat ≤ 511 ∧ kind = .nodeNotCanonical ∧ value < s.nodeCount.toNat ∧
        recordOk value (nodeWord0 s.node value) = false ∧
        ∀ i < value, recordOk i (nodeWord0 s.node i) = true) →
    (s.payLen ≠ 0#64 → s.payLen.toNat ≤ Config.platform.payMax →
      exec .encode s = .next { s with
        bitCount := 0#64, bitbuf := Memory.unwritten 8 s.draw, cc := .unspecified, draw := s.draw + 1,
        result := .treeError, errInfo := errInfoOf kind value, fault := true, seq := .idle, work := .dead }) ∧
    (s.symCount ≠ 0#64 → s.symCount.toNat ≤ Config.platform.outMax →
      exec .decode s = .next { s with
        outLen := 0#64, out := Memory.unwritten 8 s.draw, draw := s.draw + 1,
        result := .treeError, errInfo := errInfoOf kind value, fault := true, seq := .idle, work := .dead }))

/-- 41_encode R153: on a checked array the search is the spec's recursion, left subtree first, at every node
below NODE_COUNT, and its paths have at most 510 bits. -/
def Obligations.FindPathIsLeftFirst : Prop :=
  ∀ (s : State) (b : Byte) (i : Nat), treeCheck s = none → i < s.nodeCount.toNat →
    (findPath s.node (i + 1) i b =
      if tagField (nodeWord0 s.node i) then
        match findPath s.node (leftField (nodeWord0 s.node i) + 1) (leftField (nodeWord0 s.node i)) b with
        | some p => some (false :: p)
        | none =>
          (findPath s.node (rightField (nodeWord0 s.node i) + 1) (rightField (nodeWord0 s.node i)) b).map
            (fun p => true :: p)
      else if byteField (nodeWord0 s.node i) = b then some [] else none) ∧
    (∀ p, findPath s.node (i + 1) i b = some p → p.length ≤ 510 ∧ isPath s.node i p b)

/-- 41_encode R162 (b): the paths of distinct byte values are distinct, and none is a prefix of another, in any
node array. -/
def Obligations.PathsArePrefixFree : Prop :=
  ∀ (s : State) (a b : Byte) (p q : Path),
    s.findRootPath a = some p → s.findRootPath b = some q → p <+: q → a = b ∧ p = q

/-- 41_encode R162 (a): after a BUILD every byte value with a non-zero frequency has a path. -/
def Obligations.BuildGivesEveryByteAPath : Prop :=
  ∀ s : State, s.buildable → ∃ t, exec .build s = .next t ∧
    ∀ v < 256, s.freq.read v ≠ 0#64 → (t.findRootPath (BitVec.ofNat 8 v)).isSome = true

/-- 40_build R128 (f), 41_encode R162 (d): with two leaves or more every path BUILD gives has at least one bit and
fewer bits than there are leaves. -/
def Obligations.BuildPathsAreShort : Prop :=
  ∀ s : State, s.buildable → 2 ≤ s.leafCount → ∃ t, exec .build s = .next t ∧
    ∀ (b : Byte) (p : Path), t.findRootPath b = some p → 1 ≤ p.length ∧ p.length ≤ s.leafCount - 1

/-! ### ENCODE -/

/-- 10_state R23; 41_encode R156, R159: what ENCODE leaves alone, and its effects where it ends with a fault:
the contents of BITBUF become the free values of a fresh draw (log entry 9), CC unspecified (log entry 10). -/
def Obligations.EncodeFrame : Prop :=
  ∀ s : State, ∃ t, exec .encode s = .next t ∧ t.seq = .idle ∧ t.work = .dead ∧ t.freq = s.freq ∧ t.node = s.node ∧
    t.nodeCount = s.nodeCount ∧ t.pay = s.pay ∧ t.payLen = s.payLen ∧ t.symCount = s.symCount ∧ t.out = s.out ∧
    t.outLen = s.outLen ∧ t.host = s.host ∧ t.lastRead = s.lastRead ∧
    (t.result.isFault = false → t.result = .ok ∧ t.fault = s.fault ∧ t.errInfo = 0#64 ∧ t.draw = s.draw ∧
      ∀ a, (t.bitCount.toNat + 7) / 8 ≤ a → t.bitbuf.read a = s.bitbuf.read a) ∧
    (t.result.isFault = true → t.fault = true ∧ t.bitCount = 0#64 ∧ t.bitbuf = Memory.unwritten 8 s.draw ∧
      t.draw = s.draw + 1 ∧ t.cc = .unspecified)

/-- 41_encode R151: the length tests, before anything else is looked at; R159, 60_exceptions R215 for the effects
of the fault, where the free contents of BITBUF (log entry 9) and the mark of CC (log entry 10) are the model's
choice. -/
def Obligations.EncodeTestsTheLength : Prop :=
  ∀ s : State,
    (s.payLen = 0#64 → exec .encode s = .next { s with
      cc := .known [], bitCount := 0#64, result := .ok, errInfo := 0#64, seq := .idle, work := .dead }) ∧
    (Config.platform.payMax < s.payLen.toNat → exec .encode s = .next { s with
      bitCount := 0#64, bitbuf := Memory.unwritten 8 s.draw, cc := .unspecified, draw := s.draw + 1,
      result := .allocationFailure, errInfo := errInfoOf .payloadTooLong 0, fault := true, seq := .idle,
      work := .dead })

/-- 41_encode R155, R156, R158; 30_encoding R95; 20_memory R62, R63: a successful ENCODE, told without a cache:
BIT_COUNT is the length of the concatenated paths, bit i of the buffer is bit i of them, the last byte is padded
with zeros, and no byte above is written. -/
def Obligations.EncodeWritesTheStream : Prop :=
  ∀ (s : State) (bits : Path), s.payLen ≠ 0#64 → s.payLen.toNat ≤ Config.platform.payMax → treeCheck s = none →
    s.payloadBits s.payLen.toNat = some bits → bits.length ≤ 8 * Config.platform.bitbufMax →
    ∃ t, exec .encode s = .next t ∧ t.result = .ok ∧ t.errInfo = 0#64 ∧ t.fault = s.fault ∧
      t.bitCount.toNat = bits.length ∧ (∀ i (h : i < bits.length), bitRead t.bitbuf i = bits[i]) ∧
      (∀ i, bits.length ≤ i → i < 8 * ((bits.length + 7) / 8) → bitRead t.bitbuf i = false) ∧
      (∀ a, (bits.length + 7) / 8 ≤ a → t.bitbuf.read a = s.bitbuf.read a)

/-- 41_encode R154: at the end of a successful ENCODE an entry is valid exactly for the byte values of the
payload, with the path a search finds. -/
def Obligations.EncodeFillsTheCache : Prop :=
  ∀ (s : State) (bits : Path), s.payLen ≠ 0#64 → s.payLen.toNat ≤ Config.platform.payMax → treeCheck s = none →
    s.payloadBits s.payLen.toNat = some bits → bits.length ≤ 8 * Config.platform.bitbufMax →
    ∃ t entries, exec .encode s = .next t ∧ t.cc = .known entries ∧
      ∀ b : Byte, ((∃ j < s.payLen.toNat, s.pay.read j = b) → cellsGet entries b.toNat = s.findRootPath b) ∧
        ((∀ j < s.payLen.toNat, s.pay.read j ≠ b) → cellsGet entries b.toNat = none)

/-- 41_encode R160: the first payload byte without a path; R159, 60_exceptions R215 for the effects, where the free
contents of BITBUF (log entry 9) and the mark of CC (log entry 10) are the model's choice. -/
def Obligations.EncodeRaisesNoPath : Prop :=
  ∀ (s : State) (j : Nat) (bits : Path), s.payLen.toNat ≤ Config.platform.payMax → treeCheck s = none →
    j < s.payLen.toNat → s.payloadBits j = some bits → bits.length ≤ 8 * Config.platform.bitbufMax →
    s.findRootPath (s.pay.read j) = none →
    exec .encode s = .next { s with
      bitCount := 0#64, bitbuf := Memory.unwritten 8 s.draw, cc := .unspecified, draw := s.draw + 1,
      result := .treeError, errInfo := errInfoOf .noPath j, fault := true, seq := .idle, work := .dead }

/-- 41_encode R157: the first path that does not fit, for every choice of the capacities; ENCODE itself is
this function at the platform's. R159, 60_exceptions R215 for the effects, where the free contents of BITBUF (log
entry 9) and the mark of CC (log entry 10) are the model's choice. -/
def Obligations.EncodeRaisesStreamTooLong : Prop :=
  (∀ s : State, exec .encode s = .next (encodeEffect Config.platform s)) ∧
  ∀ (p : Params) (s : State) (j : Nat) (bits q : Path), s.payLen.toNat ≤ p.payMax → treeCheck s = none →
    j < s.payLen.toNat → s.payloadBits j = some bits → bits.length ≤ 8 * p.bitbufMax →
    s.findRootPath (s.pay.read j) = some q → 8 * p.bitbufMax < bits.length + q.length →
    encodeEffect p s = { s with
      bitCount := 0#64, bitbuf := Memory.unwritten 8 s.draw, cc := .unspecified, draw := s.draw + 1,
      result := .allocationFailure, errInfo := errInfoOf .streamTooLong j, fault := true, seq := .idle,
      work := .dead }

/-- 41_encode R161: the one-node tree: the empty path is its byte's, payload bytes equal to its byte contribute no bits, any other byte has no
path. -/
def Obligations.EncodeOnAOneNodeTree : Prop :=
  ∀ (s : State) (v : Byte), s.nodeCount = 1#10 → nodeWord0 s.node 0 = v.setWidth 64 <<< 8 → s.payLen ≠ 0#64 →
    s.payLen.toNat ≤ Config.platform.payMax →
    s.findRootPath v = some [] ∧
    ((∀ j < s.payLen.toNat, s.pay.read j = v) →
      ∃ t, exec .encode s = .next t ∧ t.result = .ok ∧ t.bitCount = 0#64 ∧ t.bitbuf = s.bitbuf) ∧
    (∀ j, j < s.payLen.toNat → (∀ k < j, s.pay.read k = v) → s.pay.read j ≠ v →
      ∃ t, exec .encode s = .next t ∧ t.result = .treeError ∧ t.errInfo = errInfoOf .noPath j)

/-! ### DECODE -/

/-- 10_state R23; 42_decode R187, R188: what DECODE leaves alone, and its effects where it ends with a fault: the
contents of OUT become the free values of a fresh draw (log entry 9). -/
def Obligations.DecodeFrame : Prop :=
  ∀ s : State, ∃ t, exec .decode s = .next t ∧ t.seq = .idle ∧ t.work = .dead ∧ t.freq = s.freq ∧ t.node = s.node ∧
    t.nodeCount = s.nodeCount ∧ t.pay = s.pay ∧ t.payLen = s.payLen ∧ t.bitbuf = s.bitbuf ∧
    t.bitCount = s.bitCount ∧ t.symCount = s.symCount ∧ t.cc = s.cc ∧ t.host = s.host ∧
    t.lastRead = s.lastRead ∧
    (t.result.isFault = false → t.result = .ok ∧ t.fault = s.fault ∧ t.errInfo = 0#64 ∧ t.draw = s.draw ∧
      t.outLen = s.symCount ∧ ∀ k, s.symCount.toNat ≤ k → t.out.read k = s.out.read k) ∧
    (t.result.isFault = true → t.fault = true ∧ t.outLen = 0#64 ∧ t.out = Memory.unwritten 8 s.draw ∧
      t.draw = s.draw + 1)

/-- 42_decode R181: the zero count, whatever the tree, the stream and the counts. -/
def Obligations.DecodeOfNothing : Prop :=
  ∀ s : State, s.symCount = 0#64 →
    exec .decode s = .next { s with
      outLen := 0#64, result := .ok, errInfo := 0#64, seq := .idle, work := .dead }

/-- 42_decode R183: the capacity tests; R188, 60_exceptions R215 for the effects, where the free contents of OUT (log
entry 9) are the model's choice. -/
def Obligations.DecodeTestsTheCapacities : Prop :=
  ∀ s : State,
    (Config.platform.outMax < s.symCount.toNat → exec .decode s = .next { s with
      outLen := 0#64, out := Memory.unwritten 8 s.draw, draw := s.draw + 1, result := .allocationFailure,
      errInfo := errInfoOf .outputTooLong 0, fault := true, seq := .idle, work := .dead }) ∧
    (s.symCount ≠ 0#64 → s.symCount.toNat ≤ Config.platform.outMax → treeCheck s = none →
      tagField (nodeWord0 s.node s.root) = true → 8 * Config.platform.bitbufMax < s.bitCount.toNat →
      exec .decode s = .next { s with
        outLen := 0#64, out := Memory.unwritten 8 s.draw, draw := s.draw + 1, result := .allocationFailure,
        errInfo := errInfoOf .bitCountTooLarge 0, fault := true, seq := .idle, work := .dead })

/-- 42_decode R182: a leaf root gives copies of its byte, whatever BITBUF and BIT_COUNT hold. -/
def Obligations.DecodeWithALeafRoot : Prop :=
  ∀ s : State, s.symCount ≠ 0#64 → s.symCount.toNat ≤ Config.platform.outMax → treeCheck s = none →
    tagField (nodeWord0 s.node s.root) = false →
    ∃ t, exec .decode s = .next t ∧
      t = { s with
        out := t.out, outLen := s.symCount, result := .ok, errInfo := 0#64, seq := .idle, work := .dead } ∧
      ∀ k, t.out.read k =
        if k < s.symCount.toNat then byteField (nodeWord0 s.node s.root) else s.out.read k

/-- 42_decode R184, R187: if the counted bits begin with the paths of as many bytes as are asked for, those
bytes are written, in order, and nothing else of OUT; unread bits are ignored. -/
def Obligations.DecodeEmitsTheSymbols : Prop :=
  ∀ (s : State) (bytes : List Byte) (paths : List Path), s.symCount.toNat ≤ Config.platform.outMax →
    treeCheck s = none → tagField (nodeWord0 s.node s.root) = true →
    s.bitCount.toNat ≤ 8 * Config.platform.bitbufMax → bytes.length = s.symCount.toNat →
    List.Forall₂ (fun b p => isPath s.node s.root p b) bytes paths → paths.flatten.length ≤ s.bitCount.toNat →
    (∀ i (h : i < paths.flatten.length), bitRead s.bitbuf i = paths.flatten[i]) →
    ∃ t, exec .decode s = .next t ∧
      t = { s with
        out := t.out, outLen := s.symCount, result := .ok, errInfo := 0#64, seq := .idle, work := .dead } ∧
      (∀ k (h : k < bytes.length), t.out.read k = bytes[k]) ∧
      ∀ k, bytes.length ≤ k → t.out.read k = s.out.read k

/-- 42_decode R185: if the counted bits hold the paths of fewer bytes than are asked for and the rest of them
completes no further one, DECODE ends with DECODE_ERROR and the number decoded, whether the stream ends between
two symbols or in the middle of one. The free contents of OUT are the model's choice (log entry 9). -/
def Obligations.DecodeRunsOutOfBits : Prop :=
  ∀ (s : State) (bytes : List Byte) (paths : List Path), s.symCount.toNat ≤ Config.platform.outMax →
    treeCheck s = none → tagField (nodeWord0 s.node s.root) = true →
    s.bitCount.toNat ≤ 8 * Config.platform.bitbufMax → bytes.length < s.symCount.toNat →
    List.Forall₂ (fun b p => isPath s.node s.root p b) bytes paths → paths.flatten.length ≤ s.bitCount.toNat →
    (∀ i (h : i < paths.flatten.length), bitRead s.bitbuf i = paths.flatten[i]) →
    (¬ ∃ (b : Byte) (p : Path), isPath s.node s.root p b ∧ paths.flatten.length + p.length ≤ s.bitCount.toNat ∧
      ∀ i (h : i < p.length), bitRead s.bitbuf (paths.flatten.length + i) = p[i]) →
    exec .decode s = .next { s with
      outLen := 0#64, out := Memory.unwritten 8 s.draw, draw := s.draw + 1, result := .decodeError,
      errInfo := errInfoOf .bitsExhausted bytes.length, fault := true, seq := .idle, work := .dead }

/-- 42_decode R186: no bit at index BIT_COUNT or above is read: two bit buffers that agree below BIT_COUNT give
the same end but for BITBUF itself. -/
def Obligations.DecodeReadsOnlyCountedBits : Prop :=
  ∀ (s : State) (other : Memory 8), (∀ i < s.bitCount.toNat, bitRead other i = bitRead s.bitbuf i) →
    ∃ t, exec .decode s = .next t ∧ exec .decode { s with bitbuf := other } = .next { t with bitbuf := other }

/-! ### The commands together -/

/-- 42_decode R190, for any node array that passes TreeCheck: a DECODE of what a successful ENCODE wrote gives
the payload back. -/
def Obligations.DecodeInvertsEncode : Prop :=
  ∀ s t : State, s.payLen ≠ 0#64 → s.payLen.toNat ≤ Config.platform.outMax → exec .encode s = .next t →
    t.result = .ok →
    ∃ u, exec .decode { t with symCount := s.payLen } = .next u ∧ u.result = .ok ∧ u.outLen = s.payLen ∧
      ∀ k < s.payLen.toNat, u.out.read k = s.pay.read k

/-- 42_decode R190: the round trip of a payload through BUILD from its own counts, ENCODE and DECODE. -/
def Obligations.RoundTripThroughBuild : Prop :=
  ∀ s : State, 1 ≤ s.payLen.toNat → s.payLen.toNat ≤ Config.platform.payMax →
    s.payLen.toNat ≤ Config.platform.outMax →
    (∀ v < 256, (s.freq.read v).toNat =
      (List.range s.payLen.toNat).countP (fun j => s.pay.read j == BitVec.ofNat 8 v)) →
    ∃ t u bits, exec .build s = .next t ∧ t.result = .ok ∧ t.payloadBits t.payLen.toNat = some bits ∧
      exec .encode t = .next u ∧ (u.result = .ok ↔ bits.length ≤ 8 * Config.platform.bitbufMax) ∧
      (u.result = .ok → ∃ w, exec .decode { u with symCount := s.payLen } = .next w ∧ w.result = .ok ∧
        w.outLen = s.payLen ∧ ∀ k < s.payLen.toNat, w.out.read k = s.pay.read k)

/-- 42_decode R191: n repeats of one byte decode from its one-node tree whatever the packed bits. -/
def Obligations.SingleSymbolNeedsNoBits : Prop :=
  ∀ (s : State) (v : Nat) (n bitCount : Word) (bitbuf : Memory 8), v < 256 → n ≠ 0#64 →
    n.toNat ≤ Config.platform.outMax → s.freq.read v = n → (∀ u < 256, u ≠ v → s.freq.read u = 0#64) →
    ∃ t u, exec .build s = .next t ∧ t.nodeCount = 1#10 ∧
      nodeWord0 t.node 0 = (Node.leaf (BitVec.ofNat 8 v) n).word0 ∧ nodeFreq t.node 0 = n ∧
      exec .decode { t with symCount := n, bitCount := bitCount, bitbuf := bitbuf } = .next u ∧ u.result = .ok ∧
      u.outLen = n ∧ ∀ k < n.toNat, u.out.read k = BitVec.ofNat 8 v

/-! ### The invariant -/

/-- The invariant of Safety.lean holds at reset. -/
def Obligations.ResetMeetsTheInvariant : Prop := State.reset.Inv

/-- Every step keeps the invariant of Safety.lean: canonical memories, CC in form, fresh draws, working values
dead while idle (10_state R25), ERR_INFO and RESULT of one cause (60_exceptions R212), OUT_LEN within OUT. -/
def Obligations.StepKeepsTheInvariant : Prop :=
  ∀ s t : State, s.Inv → step s = .next t → t.Inv
end

