-- ==== Sys2Proof/Laws/Bus.lean ====
section
/-! SUPPORT. The register map, one lemma for each range of offsets (10_state R27): what `regLoc` names there, and
that an aligned access inside the register window reaches it. -/

namespace Sys2Proof.Machine

/-- The eight registers of the window's first 64 bytes. -/
theorem regLoc_registers :
    regLoc 0x0000 = .cmd ∧ regLoc 0x0008 = .status ∧ regLoc 0x0010 = .errInfo ∧ regLoc 0x0018 = .nodeCount ∧
      regLoc 0x0020 = .payLen ∧ regLoc 0x0028 = .bitCount ∧ regLoc 0x0030 = .symCount ∧ regLoc 0x0038 = .outLen :=
  ⟨rfl, rfl, rfl, rfl, rfl, rfl, rfl, rfl⟩

/-- A row of the register map that names one offset is passed over by every higher one. -/
theorem loc_past {off n : Nat} (h : n < off) (x y : Loc) : (if off = n then x else y) = y :=
  if_neg (Nat.ne_of_gt h)

/-- From 0x0040, past the last register, the map goes by ranges: FREQ from 0x0800 to 0x0FF8, NODE from 0x2000 to
0x3FE8, the rest reserved. -/
theorem regLoc_ranges {off : Nat} (h : 0x0040 ≤ off) :
    regLoc off =
      if off < 0x0800 then .reserved
      else if off < 0x1000 then .freq ((off - 0x0800) / 8)
      else if off < 0x2000 then .reserved
      else if off < 0x3FF0 then .nodeWord ((off - 0x2000) / 8)
      else .reserved := by
  simp (disch := omega) only [regLoc, loc_past]

theorem regLoc_reserved {off : Nat}
    (h : (0x0040 ≤ off ∧ off < 0x0800) ∨ (0x1000 ≤ off ∧ off < 0x2000) ∨ 0x3FF0 ≤ off) : regLoc off = .reserved := by
  rcases h with h | h | h <;> simp (disch := omega) only [regLoc_ranges, if_pos, if_neg]

theorem regLoc_freq {b : Nat} (h : b < 256) : regLoc (0x0800 + 8 * b) = .freq b := by
  have hb : (0x0800 + 8 * b - 0x0800) / 8 = b := by omega
  simp (disch := omega) only [regLoc_ranges, if_pos, if_neg, hb]

theorem regLoc_node {k : Nat} (h : k < 1022) : regLoc (0x2000 + 8 * k) = .nodeWord k := by
  have hk : (0x2000 + 8 * k - 0x2000) / 8 = k := by omega
  simp (disch := omega) only [regLoc_ranges, if_pos, if_neg, hk]

/-- Only offset 0 is CMD. -/
theorem regLoc_ne_cmd {off : Nat} (h : off ≠ 0) : regLoc off ≠ .cmd := by
  have step : ∀ (c : Prop) [Decidable c] (x y : Loc), x ≠ .cmd → y ≠ .cmd → (if c then x else y) ≠ .cmd := by
    intro c _ x y hx hy
    by_cases hc : c
    · rwa [if_pos hc]
    · rwa [if_neg hc]
  rw [regLoc, if_neg h]
  repeat' apply step
  all_goals exact nofun

/-- A 64-bit access at a multiple of 8 inside the register window (20_memory R66). -/
theorem busTarget_reg (p : Params) {off : Nat} (h8 : off % 8 = 0) (h : off < 0x4000) :
    busTarget p (.at .reg off) 8 = .loc (regLoc off) := by
  have h2 : Access.wellFormed off 8 = true := by simp only [Access.wellFormed, h8]; rfl
  have h1 : locate p (.at .reg off) = some (.reg, off) := if_pos h
  simp only [busTarget, h1, h2, if_true, locAt]

end Sys2Proof.Machine
end

