-- ==== Sys2Proof/Laws/Config.lean ====
section
/-! SUPPORT. What is known of the platform's parameters: that 00_scope R8 allows them, and no more. -/

namespace Sys2Proof

theorem openParams_valid : Config.openParams.valid := by
  unfold Config.openParams
  split
  · assumption
  · decide

/-- The parameters of the block are ones 00_scope R8 allows. -/
theorem platform_valid : Config.platform.valid := openParams_valid

@[simp] theorem platform_firstPickLeft : Config.platform.firstPickLeft = true := rfl

end Sys2Proof
end

