-- ==== Sys2Proof/Laws/Ops.lean ====
section
/-! SUPPORT. What the memory operations do: a read after a write, and that every operation keeps the
canonical form. -/

namespace Sys2Proof.Machine

/-! ### Listed entries -/

theorem cellsGet_put {α : Type} (c : List (Nat × α)) (a b : Nat) (v : α) :
    cellsGet (cellsPut c a v) b = if b = a then some v else cellsGet c b := by
  induction c with
  | nil => simp [cellsPut, cellsGet, eq_comm]
  | cons x rest ih =>
    obtain ⟨k, y⟩ := x
    simp only [cellsPut]
    split
    · simp [cellsGet, eq_comm]
    · split
      · subst_vars
        by_cases hb : b = k
        · simp [cellsGet, hb]
        · simp [cellsGet, hb, Ne.symm hb]
      · simp only [cellsGet, ih]
        by_cases hb : b = a <;> by_cases hk : k = b <;> simp_all

/-- An address listed after a put is the one put or one listed before. -/
theorem mem_cellsPut {α : Type} {c : List (Nat × α)} {a : Nat} {v : α} {x : Nat × α}
    (h : x ∈ cellsPut c a v) : x = (a, v) ∨ x ∈ c := by
  induction c with
  | nil => simpa [cellsPut] using h
  | cons y rest ih =>
    obtain ⟨k, z⟩ := y
    simp only [cellsPut] at h
    split at h
    · simpa using h
    · split at h
      · simp at h; tauto
      · simp only [List.mem_cons] at h ⊢
        rcases h with h | h
        · tauto
        · rcases ih h with h | h <;> tauto

theorem cellsRising_put {α : Type} {c : List (Nat × α)} (a : Nat) (v : α) (h : cellsRising c) :
    cellsRising (cellsPut c a v) := by
  induction c with
  | nil => simp [cellsRising, cellsPut]
  | cons y rest ih =>
    obtain ⟨k, z⟩ := y
    obtain ⟨hk, hr⟩ := List.pairwise_cons.1 h
    simp only [cellsPut]
    split
    · rename_i hlt
      refine List.pairwise_cons.2 ⟨?_, h⟩
      intro x hx
      rcases List.mem_cons.1 hx with rfl | hx
      · exact hlt
      · exact Nat.lt_trans hlt (hk x hx)
    · split
      · subst_vars
        exact List.pairwise_cons.2 ⟨hk, hr⟩
      · refine List.pairwise_cons.2 ⟨?_, ih hr⟩
        intro x hx
        rcases mem_cellsPut hx with rfl | hx
        · show k < a
          omega
        · exact hk x hx

theorem cellsBelow_put {α : Type} {c : List (Nat × α)} {n a : Nat} (v : α) (h : cellsBelow n c) (ha : a < n) :
    cellsBelow n (cellsPut c a v) := by
  intro x hx
  rcases mem_cellsPut hx with rfl | hx
  · exact ha
  · exact h x hx

/-! ### Memories -/

variable {w : Nat}

@[simp] theorem write_draw (m : Memory w) (a : Nat) (v : BitVec w) : (m.write a v).draw = m.draw := rfl

@[simp] theorem unwritten_draw (d : Nat) : (Memory.unwritten w d).draw = d := rfl

@[simp] theorem unwritten_cells (d : Nat) : (Memory.unwritten w d).cells = [] := rfl

/-- An unwritten memory holds the free values of its draw. -/
@[simp] theorem read_unwritten (d a : Nat) : (Memory.unwritten w d).read a = Config.freeBits w d a := rfl

theorem read_write (m : Memory w) (a b : Nat) (v : BitVec w) :
    (m.write a v).read b = if b = a then v else m.read b := by
  unfold Memory.read Memory.write Memory.unlisted
  rw [cellsGet_put]
  split <;> rfl

@[simp] theorem read_write_same (m : Memory w) (a : Nat) (v : BitVec w) : (m.write a v).read a = v := by
  simp [read_write]

theorem read_write_other (m : Memory w) {a b : Nat} (v : BitVec w) (h : b ≠ a) :
    (m.write a v).read b = m.read b := by
  simp [read_write, h]

theorem write_wf {m : Memory w} (a : Nat) (v : BitVec w) (h : m.wf) : (m.write a v).wf :=
  cellsRising_put a v h

theorem write_within {m : Memory w} {n a : Nat} (v : BitVec w) (h : m.within n) (ha : a < n) :
    (m.write a v).within n :=
  cellsBelow_put v h ha

theorem unwritten_wf (d : Nat) : (Memory.unwritten w d).wf := List.Pairwise.nil

theorem unwritten_within (d n : Nat) : (Memory.unwritten w d).within n := by
  intro x hx
  simp at hx

@[simp] theorem writeList_draw (m : Memory w) (a : Nat) (l : List (BitVec w)) : (m.writeList a l).draw = m.draw := by
  induction l generalizing m a with
  | nil => rfl
  | cons v rest ih => simp [Memory.writeList, ih]

/-- Consecutive writes: inside them the value listed, outside the value before. -/
theorem read_writeList (m : Memory w) (a b : Nat) (l : List (BitVec w)) :
    (m.writeList a l).read b = if h : a ≤ b ∧ b < a + l.length then l[b - a]'(by omega) else m.read b := by
  induction l generalizing m a with
  | nil =>
    have : ¬ (a ≤ b ∧ b < a + ([] : List (BitVec w)).length) := by simp
    simp only [this, Memory.writeList, dite_false]
  | cons v rest ih =>
    simp only [Memory.writeList, ih, read_write, List.length_cons]
    by_cases h1 : a + 1 ≤ b ∧ b < a + 1 + rest.length
    · have h2 : a ≤ b ∧ b < a + (rest.length + 1) := by omega
      obtain ⟨k, hk⟩ : ∃ k, b - a = k + 1 := ⟨b - a - 1, by omega⟩
      have hk' : b - (a + 1) = k := by omega
      simp only [h1, h2, and_self, dite_true, hk, hk', List.getElem_cons_succ]
    · by_cases h2 : b = a
      · subst h2
        simp
      · have h3 : ¬ (a ≤ b ∧ b < a + (rest.length + 1)) := by omega
        rw [dif_neg h1, dif_neg h3, if_neg h2]

theorem writeList_wf {m : Memory w} (a : Nat) (l : List (BitVec w)) (h : m.wf) : (m.writeList a l).wf := by
  induction l generalizing m a with
  | nil => exact h
  | cons v rest ih => exact ih (a + 1) (write_wf a v h)

theorem writeList_within {m : Memory w} {n : Nat} (a : Nat) (l : List (BitVec w)) (h : m.within n)
    (ha : a + l.length ≤ n) : (m.writeList a l).within n := by
  induction l generalizing m a with
  | nil => exact h
  | cons v rest ih =>
    simp only [List.length_cons] at ha
    exact ih (a + 1) (write_within v h (by omega)) (by omega)

end Sys2Proof.Machine
end

