-- ==== Sys2Proof/Laws/Operands.lean ====
section
/-! SUPPORT. What the operand functions do: node fields, TreeCheck, the search, stream bits, byte lanes. -/

namespace Sys2Proof.Machine

/-! ### Node fields -/

@[simp] theorem freq_leaf (v : Byte) (f : Word) : (Node.leaf v f).freq = f := rfl

@[simp] theorem freq_branch (l r : Nat) (f : Word) : (Node.branch l r f).freq = f := rfl

@[simp] theorem tagField_leaf (v : Byte) (f : Word) : tagField (Node.leaf v f).word0 = false := by
  simp [tagField, Node.word0]

@[simp] theorem tagField_branch (l r : Nat) (f : Word) : tagField (Node.branch l r f).word0 = true := by
  simp [tagField, Node.word0]

@[simp] theorem byteField_leaf (v : Byte) (f : Word) : byteField (Node.leaf v f).word0 = v := by
  apply BitVec.eq_of_getLsbD_eq
  intro i hi
  simp [byteField, Node.word0, hi, show 8 + i < 64 by omega]

/-- The number a branch's word 0 is. -/
theorem word0_branch {l r : Nat} (f : Word) (hl : l < 512) (hr : r < 512) :
    (Node.branch l r f).word0 = BitVec.ofNat 64 (1 + l * 2 ^ 16 + r * 2 ^ 32) := by
  have h2 : (BitVec.ofNat 64 l <<< 16).toNat = l <<< 16 := by
    simp [BitVec.toNat_shiftLeft, Nat.shiftLeft_eq]
    omega
  have h3 : (BitVec.ofNat 64 r <<< 32).toNat = r <<< 32 := by
    simp [BitVec.toNat_shiftLeft, Nat.shiftLeft_eq]
    omega
  have h4 : 1 ||| l <<< 16 = l <<< 16 + 1 := by
    rw [Nat.or_comm, ← Nat.shiftLeft_add_eq_or_of_lt (by decide)]
  have h5 : (l <<< 16 + 1) ||| r <<< 32 = r <<< 32 + (l <<< 16 + 1) := by
    rw [Nat.or_comm, ← Nat.shiftLeft_add_eq_or_of_lt (by rw [Nat.shiftLeft_eq]; omega)]
  have h6 : (1#64).toNat = 1 := rfl
  apply BitVec.eq_of_toNat_eq
  simp only [Node.word0, BitVec.toNat_or, h2, h3, h6, BitVec.toNat_ofNat]
  rw [h4, h5, Nat.shiftLeft_eq, Nat.shiftLeft_eq]
  omega

theorem leftField_branch {l r : Nat} (f : Word) (hl : l < 512) (hr : r < 512) :
    leftField (Node.branch l r f).word0 = l := by
  rw [leftField, word0_branch f hl hr]
  simp [BitVec.extractLsb', Nat.shiftRight_eq_div_pow]
  omega

theorem rightField_branch {l r : Nat} (f : Word) (hl : l < 512) (hr : r < 512) :
    rightField (Node.branch l r f).word0 = r := by
  rw [rightField, word0_branch f hl hr]
  simp [BitVec.extractLsb', Nat.shiftRight_eq_div_pow]
  omega

/-- A canonical branch's children lie below it (30_encoding R93). -/
theorem recordOk_children {i : Nat} {w : Word} (h : recordOk i w = true) (ht : tagField w = true) :
    leftField w < i ∧ rightField w < i := by
  simp [recordOk, ht] at h
  exact ⟨h.2.1.2, h.2.2⟩

theorem childOf_lt {node : Memory 64} {i : Nat} (h : recordOk i (nodeWord0 node i) = true)
    (ht : tagField (nodeWord0 node i) = true) (x : Bool) : childOf node i x < i := by
  obtain ⟨hl, hr⟩ := recordOk_children h ht
  cases x
  · exact hl
  · exact hr

/-! ### TreeCheck -/

theorem firstBadNode_none {node : Memory 64} {n : Nat} :
    firstBadNode node n = none ↔ ∀ i < n, recordOk i (nodeWord0 node i) = true := by
  simp [firstBadNode]

theorem firstBadNode_some {node : Memory 64} {n i : Nat} (h : firstBadNode node n = some i) :
    i < n ∧ recordOk i (nodeWord0 node i) = false ∧ ∀ k < i, recordOk k (nodeWord0 node k) = true := by
  unfold firstBadNode at h
  obtain ⟨hp, as, bs, hl, hb⟩ := List.find?_eq_some_iff_append.1 h
  have hlt : i < n := List.mem_range.1 (List.mem_of_find?_eq_some h)
  refine ⟨hlt, by simpa using hp, fun k hk => ?_⟩
  have hlen : as.length = i := by
    have := congrArg (fun l => l[as.length]?) hl
    simp only [List.getElem?_append_right (Nat.le_refl _), Nat.sub_self, List.getElem?_cons_zero] at this
    by_cases hh : as.length < n
    · simpa [hh] using this
    · simp [hh] at this
  have hmem : k ∈ as := by
    have h1 := congrArg (fun l => l[k]?) hl
    have h2 : k < as.length := by omega
    simp only [List.getElem?_append_left h2, List.getElem?_range (show k < n by omega)] at h1
    exact List.mem_of_getElem? h1.symm
  simpa using hb k hmem

/-- The whole of TreeCheck: it passes, or it names a count out of range, or the lowest bad record
(41_encode R152). -/
theorem treeCheck_none {s : State} : treeCheck s = none ↔
    (1 ≤ s.nodeCount.toNat ∧ s.nodeCount.toNat ≤ 511) ∧
      ∀ i < s.nodeCount.toNat, recordOk i (nodeWord0 s.node i) = true := by
  simp only [treeCheck]
  split
  · rename_i h
    simp
    omega
  · rename_i h
    rw [Option.map_eq_none_iff, firstBadNode_none]
    constructor
    · intro h2
      exact ⟨by omega, h2⟩
    · exact fun h2 => h2.2

/-- TreeCheck raises only TREE_ERROR kinds 2 and 3 (41_encode R152). -/
theorem treeCheck_kind {s : State} {e : FaultKind × Nat} (h : treeCheck s = some e) :
    e.1 = .nodeCountRange ∨ e.1 = .nodeNotCanonical := by
  simp only [treeCheck] at h
  split at h
  · simp at h; subst h; simp
  · simp only [Option.map_eq_some_iff] at h
    obtain ⟨i, _, rfl⟩ := h
    simp

/-! ### The search -/

/-- A path found leads to a leaf carrying the byte, and is shorter than the budget. -/
theorem findPath_isPath {node : Memory 64} {budget i : Nat} {b : Byte} {p : Path}
    (h : findPath node budget i b = some p) : isPath node i p b ∧ p.length < budget := by
  induction budget generalizing i p with
  | zero => simp [findPath] at h
  | succ n ih =>
    simp only [findPath] at h
    split at h
    · rename_i ht
      split at h
      · rename_i q hq
        obtain ⟨h1, h2⟩ := ih hq
        cases h
        exact ⟨⟨ht, h1⟩, by simpa using h2⟩
      · split at h
        · rename_i q hq
          obtain ⟨h1, h2⟩ := ih hq
          cases h
          exact ⟨⟨ht, h1⟩, by simpa using h2⟩
        · simp at h
    · rename_i ht
      split at h
      · rename_i hb
        cases h
        exact ⟨⟨by simpa using ht, hb⟩, by simp⟩
      · simp at h

/-- In a checked array any budget above the index gives the same search. -/
theorem findPath_budget {node : Memory 64} {n : Nat} (hok : ∀ i < n, recordOk i (nodeWord0 node i) = true)
    (b : Byte) {i budget : Nat} (hi : i < n) (hb : i < budget) :
    findPath node budget i b = findPath node (i + 1) i b := by
  induction i using Nat.strong_induction_on generalizing budget with
  | _ i ih =>
    obtain ⟨m, rfl⟩ : ∃ m, budget = m + 1 := ⟨budget - 1, by omega⟩
    simp only [findPath]
    split
    · rename_i ht
      obtain ⟨hl, hr⟩ := recordOk_children (hok i hi) ht
      rw [ih _ hl (budget := m) (by omega) (by omega), ih _ hl (budget := i) (by omega) hl,
        ih _ hr (budget := m) (by omega) (by omega), ih _ hr (budget := i) (by omega) hr]
    · rfl

/-- A search that finds nothing means that there is no path. -/
theorem findPath_none {node : Memory 64} {n : Nat} (hok : ∀ i < n, recordOk i (nodeWord0 node i) = true)
    {b : Byte} {i : Nat} (hi : i < n) {budget : Nat} (hb : i < budget)
    (h : findPath node budget i b = none) (p : Path) : ¬ isPath node i p b := by
  induction i using Nat.strong_induction_on generalizing budget p with
  | _ i ih =>
    obtain ⟨m, rfl⟩ : ∃ m, budget = m + 1 := ⟨budget - 1, by omega⟩
    simp only [findPath] at h
    split at h
    · rename_i ht
      obtain ⟨hl, hr⟩ := recordOk_children (hok i hi) ht
      split at h
      · simp at h
      · rename_i h1
        split at h
        · simp at h
        · rename_i h2
          intro hp
          match p with
          | [] => simp [isPath, ht] at hp
          | false :: q => exact ih _ hl (by omega) (budget := m) (by omega) h1 q hp.2
          | true :: q => exact ih _ hr (by omega) (budget := m) (by omega) h2 q hp.2
    · rename_i ht
      split at h
      · simp at h
      · rename_i hb
        intro hp
        match p with
        | [] => exact hb hp.2
        | x :: q => exact ht hp.1

/-- A path ends where it first meets a leaf: of two paths from one node, neither goes on past the other. -/
theorem isPath_prefix {node : Memory 64} {i : Nat} {p q : Path} {a b : Byte} (hp : isPath node i p a)
    (hq : isPath node i q b) (h : p <+: q) : p = q ∧ a = b := by
  induction p generalizing i q with
  | nil =>
    match q with
    | [] => exact ⟨rfl, hp.2.symm.trans hq.2⟩
    | y :: q => exact absurd hq.1 (by simp [hp.1])
  | cons x p ih =>
    match q with
    | [] => simp at h
    | y :: q =>
      obtain ⟨rfl, h'⟩ := List.cons_prefix_cons.1 h
      obtain ⟨rfl, rfl⟩ := ih hp.2 hq.2 h'
      exact ⟨rfl, rfl⟩

/-! ### Stream bits and byte lanes -/

theorem bitRead_write (m : Memory 8) (a i : Nat) (v : Byte) :
    bitRead (m.write a v) i = if i / 8 = a then v.getLsbD (7 - i % 8) else bitRead m i := by
  simp only [bitRead, read_write]
  split <;> rfl

theorem getLsbD_bitAt (x : Bool) (i k : Nat) :
    (bitAt x i).getLsbD k = (x && decide (k = 7 - i % 8)) := by
  unfold bitAt
  cases x
  · simp
  · simp only [if_true, BitVec.getLsbD_shiftLeft, BitVec.getLsbD_one, Bool.true_and]
    have : 7 - i % 8 < 8 := by omega
    by_cases h : k = 7 - i % 8
    · simp [h, this]
    · by_cases h2 : k < 7 - i % 8
      · simp [h, h2]
      · have : k - (7 - i % 8) ≠ 0 := by omega
        simp [h, this]

/-- The byte lanes of a write (20_memory R61). -/
theorem read_writeLanes (m : Memory 8) (n a : Nat) (v : Word) :
    (writeLanes m n v).read a = if a / 8 = n then v.extractLsb' (8 * (a % 8)) 8 else m.read a := by
  unfold writeLanes
  rw [read_writeList]
  by_cases h : a / 8 = n
  · have h1 : 8 * n ≤ a ∧ a < 8 * n + ((List.range 8).map (fun k => v.extractLsb' (8 * k) 8)).length := by
      simp; omega
    have h2 : a - 8 * n = a % 8 := by omega
    rw [dif_pos h1, if_pos h]
    simp [h2]
  · have h1 : ¬ (8 * n ≤ a ∧ a < 8 * n + ((List.range 8).map (fun k => v.extractLsb' (8 * k) 8)).length) := by
      simp; omega
    rw [dif_neg h1, if_neg h]

theorem writeLanes_wf {m : Memory 8} (n : Nat) (v : Word) (h : m.wf) : (writeLanes m n v).wf :=
  writeList_wf _ _ h

theorem writeLanes_within {m : Memory 8} {size : Nat} (n : Nat) (v : Word) (h : m.within size)
    (hn : 8 * n + 8 ≤ size) : (writeLanes m n v).within size :=
  writeList_within _ _ h (by simpa using hn)

@[simp] theorem writeLanes_draw (m : Memory 8) (n : Nat) (v : Word) : (writeLanes m n v).draw = m.draw :=
  writeList_draw _ _ _

/-- The byte lanes of a read (20_memory R61). -/
theorem lane_readLanes (m : Memory 8) (n k : Nat) (hk : k < 8) :
    (readLanes m n).extractLsb' (8 * k) 8 = m.read (8 * n + k) := by
  apply BitVec.eq_of_getLsbD_eq
  intro i hi
  unfold readLanes
  interval_cases k <;>
    simp only [BitVec.getLsbD_extractLsb', BitVec.getLsbD_append, hi, decide_true, Bool.true_and] <;>
    repeat (first | rw [if_pos (by omega)] | rw [if_neg (by omega)])
  all_goals (congr 1; try omega)

/-! ### Node words -/

@[simp] theorem nodeWords_length (nodes : List Node) : (nodeWords nodes).length = 2 * nodes.length := by
  induction nodes with
  | nil => rfl
  | cons n rest ih => simp [nodeWords, ih]; omega

theorem nodeWords_even (nodes : List Node) (i : Nat) : (nodeWords nodes)[2 * i]? = nodes[i]?.map Node.word0 := by
  induction nodes generalizing i with
  | nil => simp [nodeWords]
  | cons n rest ih =>
    cases i with
    | zero => simp [nodeWords]
    | succ i => simpa [nodeWords, Nat.mul_add] using ih i

theorem nodeWords_odd (nodes : List Node) (i : Nat) : (nodeWords nodes)[2 * i + 1]? = nodes[i]?.map Node.freq := by
  induction nodes generalizing i with
  | nil => simp [nodeWords]
  | cons n rest ih =>
    cases i with
    | zero => simp [nodeWords]
    | succ i => simpa [nodeWords, Nat.mul_add] using ih i

/-- Word 0 of an entry written. -/
theorem nodeWord0_writeNodes (m : Memory 64) (nodes : List Node) (i : Nat) (h : i < nodes.length) :
    nodeWord0 (writeNodes m nodes) i = nodes[i].word0 := by
  have h1 : 0 ≤ 2 * i ∧ 2 * i < 0 + (nodeWords nodes).length := by simp; omega
  unfold nodeWord0 writeNodes
  rw [read_writeList, dif_pos h1]
  have h2 := nodeWords_even nodes i
  rw [List.getElem?_eq_getElem (by simp; omega), List.getElem?_eq_getElem h] at h2
  simpa using h2

/-- Word 1 of an entry written. -/
theorem nodeFreq_writeNodes (m : Memory 64) (nodes : List Node) (i : Nat) (h : i < nodes.length) :
    nodeFreq (writeNodes m nodes) i = nodes[i].freq := by
  have h1 : 0 ≤ 2 * i + 1 ∧ 2 * i + 1 < 0 + (nodeWords nodes).length := by simp; omega
  unfold nodeFreq writeNodes
  rw [read_writeList, dif_pos h1]
  have h2 := nodeWords_odd nodes i
  rw [List.getElem?_eq_getElem (by simp; omega), List.getElem?_eq_getElem h] at h2
  simpa using h2

/-- The words past the entries written. -/
theorem read_writeNodes_above (m : Memory 64) (nodes : List Node) (k : Nat) (h : 2 * nodes.length ≤ k) :
    (writeNodes m nodes).read k = m.read k := by
  have h1 : ¬ (0 ≤ k ∧ k < 0 + (nodeWords nodes).length) := by simp; omega
  unfold writeNodes
  rw [read_writeList, dif_neg h1]

theorem writeNodes_wf {m : Memory 64} (nodes : List Node) (h : m.wf) : (writeNodes m nodes).wf :=
  writeList_wf _ _ h

theorem writeNodes_within {m : Memory 64} {size : Nat} (nodes : List Node) (h : m.within size)
    (hn : 2 * nodes.length ≤ size) : (writeNodes m nodes).within size :=
  writeList_within _ _ h (by simpa using hn)

@[simp] theorem writeNodes_draw (m : Memory 64) (nodes : List Node) : (writeNodes m nodes).draw = m.draw :=
  writeList_draw _ _ _

end Sys2Proof.Machine
end

