-- ==== Sys2Proof/Laws/Decoder.lean ====
section
/-! SUPPORT. What DECODE's parts do: the leaf-root fill (42_decode R182) and the walk (R184 to R186). -/

namespace Sys2Proof.Machine

/-! ### The leaf root -/

theorem read_fillOut (out : Memory 8) (b : Byte) (n k : Nat) :
    (fillOut out b n).read k = if k < n then b else out.read k := by
  induction n with
  | zero => simp [fillOut]
  | succ n ih =>
    simp only [fillOut, read_write, ih]
    by_cases h : k = n
    · simp [h]
    · by_cases h2 : k < n
      · simp [h, h2, show k < n + 1 by omega]
      · simp [h, h2, show ¬ k < n + 1 by omega]

@[simp] theorem fillOut_draw (out : Memory 8) (b : Byte) (n : Nat) : (fillOut out b n).draw = out.draw := by
  induction n with
  | zero => rfl
  | succ n ih => simpa [fillOut] using ih

theorem fillOut_wf {out : Memory 8} (b : Byte) (n : Nat) (h : out.wf) : (fillOut out b n).wf := by
  induction n with
  | zero => exact h
  | succ n ih => exact write_wf _ _ ih

theorem fillOut_within {out : Memory 8} {size : Nat} (b : Byte) {n : Nat} (h : out.within size) (hn : n ≤ size) :
    (fillOut out b n).within size := by
  induction n with
  | zero => exact h
  | succ n ih => exact write_within _ (ih (by omega)) (by omega)

/-! ### The walk -/

/-- The walk does not depend on anything but the tree, the count and the bits it reads (42_decode R186). -/
theorem walk_congr {s s' : State} (hn : s'.node = s.node) (hc : s'.nodeCount = s.nodeCount)
    (hs : s'.symCount = s.symCount) (bits : Nat) (w : DecodeWork) (out : Memory 8)
    (hb : ∀ i, w.pos ≤ i → i < w.pos + bits → bitRead s'.bitbuf i = bitRead s.bitbuf i) :
    walk s' bits w out = walk s bits w out := by
  have hr : s'.root = s.root := by simp only [State.root, hc]
  induction bits generalizing w out with
  | zero => simp only [walk, hs]
  | succ n ih =>
    have h1 : walkBit s' w out = walkBit s w out := by
      simp only [walkBit, hn, hr, hb w.pos (Nat.le_refl _) (by omega)]
    have h2 : (walkBit s w out).1.pos = w.pos + 1 := by
      simp only [walkBit]; split <;> rfl
    simp only [walk, h1, hs]
    rw [ih]
    intro i hi hi2
    rw [h2] at hi hi2
    exact hb i (by omega) (by omega)

/-- Reading the bits of a path from the cursor to a leaf writes the leaf's byte and returns the cursor to the
root (42_decode R184). -/
theorem walk_path (s : State) {b : Byte} {p : Path} (hp : p ≠ []) :
    ∀ {w : DecodeWork} (bits : Nat) (out : Memory 8), isPath s.node w.cur p b → w.emitted < s.symCount.toNat →
      (∀ i (h : i < p.length), bitRead s.bitbuf (w.pos + i) = p[i]) →
      walk s (p.length + bits) w out =
        walk s bits { cur := s.root, pos := w.pos + p.length, emitted := w.emitted + 1 } (out.write w.emitted b) := by
  induction p with
  | nil => exact absurd rfl hp
  | cons x p ih =>
    intro w bits out hw he hb
    have hx : bitRead s.bitbuf w.pos = x := hb 0 (Nat.zero_lt_succ _)
    have hstep : walk s ((x :: p).length + bits) w out =
        walk s (p.length + bits) (walkBit s w out).1 (walkBit s w out).2 := by
      rw [show (x :: p).length + bits = (p.length + bits) + 1 by simp; omega]
      exact if_pos he
    rw [hstep]
    cases p with
    | nil =>
      obtain ⟨_, hleaf, hbyte⟩ := hw
      have hbit : walkBit s w out =
          ({ cur := s.root, pos := w.pos + 1, emitted := w.emitted + 1 }, out.write w.emitted b) := by
        simp [walkBit, hx, hleaf, hbyte]
      simp [hbit]
    | cons y q =>
      obtain ⟨_, hmid⟩ := hw
      have hbit : walkBit s w out = ({ w with cur := childOf s.node w.cur x, pos := w.pos + 1 }, out) := by
        simp [walkBit, hx, hmid.1]
      rw [hbit, ih (by simp) (w := { w with cur := childOf s.node w.cur x, pos := w.pos + 1 }) bits out hmid he]
      · simp only [List.length_cons]
        congr 2
        omega
      · intro i hi
        have := hb (i + 1) (by simp at hi ⊢; omega)
        simpa [Nat.add_assoc, Nat.add_comm 1 i] using this

/-- Reading the paths of several symbols, one after another. -/
theorem walk_symbols (s : State) (hroot : tagField (nodeWord0 s.node s.root) = true) {bytes : List Byte}
    {paths : List Path} (h : List.Forall₂ (fun b p => isPath s.node s.root p b) bytes paths) :
    ∀ (bits pos emitted : Nat) (out : Memory 8), emitted + bytes.length ≤ s.symCount.toNat →
      (∀ i (hi : i < paths.flatten.length), bitRead s.bitbuf (pos + i) = paths.flatten[i]) →
      walk s (paths.flatten.length + bits) { cur := s.root, pos := pos, emitted := emitted } out =
        walk s bits { cur := s.root, pos := pos + paths.flatten.length, emitted := emitted + bytes.length }
          (out.writeList emitted bytes) := by
  induction h with
  | nil => intro bits pos emitted out _ _; simp [Memory.writeList]
  | @cons b p bytes paths hbp _ ih =>
    intro bits pos emitted out he hb
    have hne : p ≠ [] := by
      rintro rfl
      simp [isPath, hroot] at hbp
    simp only [List.flatten_cons, List.length_append, List.length_cons] at he hb ⊢
    rw [Nat.add_assoc, walk_path s hne (w := { cur := s.root, pos := pos, emitted := emitted }) _ out hbp
      (by show emitted < _; omega), ih bits (pos + p.length) (emitted + 1) _ (by omega)]
    · simp only [Memory.writeList]
      congr 2 <;> omega
    · intro i hi
      have := hb (p.length + i) (by omega)
      rw [List.getElem_append_right (by omega)] at this
      simpa [Nat.add_assoc] using this
    · intro i hi
      have := hb i (by omega)
      rwa [List.getElem_append_left hi] at this

/-- The count reached, the walk stops, whatever bits remain (42_decode R184). -/
theorem walk_done (s : State) (bits : Nat) (w : DecodeWork) (out : Memory 8) (h : s.symCount.toNat ≤ w.emitted) :
    walk s bits w out = .ok out := by
  cases bits <;> exact if_neg (by omega)

/-- If the bits left complete no symbol, the walk ends with DECODE_ERROR and the number decoded
(42_decode R185). -/
theorem walk_runsOut (s : State) :
    ∀ (bits : Nat) (w : DecodeWork) (out : Memory 8), tagField (nodeWord0 s.node w.cur) = true →
      w.emitted < s.symCount.toNat →
      (¬ ∃ (b : Byte) (p : Path), isPath s.node w.cur p b ∧ p.length ≤ bits ∧
        ∀ i (h : i < p.length), bitRead s.bitbuf (w.pos + i) = p[i]) →
      walk s bits w out = .error (.bitsExhausted, w.emitted) := by
  intro bits
  induction bits with
  | zero => intro w out _ he _; exact if_pos he
  | succ n ih =>
    intro w out ht he hno
    have hstep : walk s (n + 1) w out = walk s n (walkBit s w out).1 (walkBit s w out).2 := if_pos he
    rw [hstep]
    by_cases hc : tagField (nodeWord0 s.node (childOf s.node w.cur (bitRead s.bitbuf w.pos))) = true
    · have hbit : walkBit s w out =
          ({ w with cur := childOf s.node w.cur (bitRead s.bitbuf w.pos), pos := w.pos + 1 }, out) := by
        simp [walkBit, hc]
      rw [hbit]
      refine ih _ out hc he ?_
      rintro ⟨b, p, h1, h2, h3⟩
      refine hno ⟨b, bitRead s.bitbuf w.pos :: p, ⟨ht, h1⟩, by simpa using h2, ?_⟩
      intro i hi
      cases i with
      | zero => rfl
      | succ i =>
        have := h3 i (by simpa using hi)
        simpa [Nat.add_assoc, Nat.add_comm 1 i] using this
    · exfalso
      refine hno ⟨_, [bitRead s.bitbuf w.pos], ⟨ht, by simpa using hc, rfl⟩, by simp, ?_⟩
      intro i hi
      have : i = 0 := by simpa using hi
      subst this
      rfl

/-- What a walk that ends well has done to OUT: only bytes below SYM_COUNT are written. -/
theorem walk_ok (s : State) :
    ∀ (bits : Nat) (w : DecodeWork) (out out' : Memory 8), walk s bits w out = .ok out' →
      out'.draw = out.draw ∧ (∀ k, s.symCount.toNat ≤ k → out'.read k = out.read k) ∧
        (out.wf → out'.wf) ∧ ∀ size, s.symCount.toNat ≤ size → out.within size → out'.within size := by
  intro bits
  induction bits with
  | zero =>
    intro w out out' h
    simp only [walk] at h
    split at h
    · simp at h
    · cases h; exact ⟨rfl, fun _ _ => rfl, id, fun _ _ => id⟩
  | succ n ih =>
    intro w out out' h
    simp only [walk] at h
    split at h
    · rename_i he
      obtain ⟨h1, h2, h3, h4⟩ := ih _ _ _ h
      simp only [walkBit] at h1 h2 h3 h4
      split at h1
      · rename_i hc
        simp only [hc, if_true] at h2 h3 h4
        exact ⟨h1, h2, h3, h4⟩
      · rename_i hc
        simp only [hc] at h2 h3 h4
        refine ⟨h1, fun k hk => ?_, fun hw => h3 (write_wf _ _ hw), fun size hs hw => h4 size hs ?_⟩
        · rw [h2 k hk]
          exact read_write_other _ _ (by omega)
        · exact write_within _ hw (by omega)
    · cases h; exact ⟨rfl, fun _ _ => rfl, id, fun _ _ => id⟩

/-- The walk raises nothing but DECODE_ERROR (42_decode R185). -/
theorem walk_kind (s : State) :
    ∀ (bits : Nat) (w : DecodeWork) (out : Memory 8) (e : FaultKind × Nat), walk s bits w out = .error e →
      e.1 = .bitsExhausted := by
  intro bits
  induction bits with
  | zero =>
    intro w out e h
    simp only [walk] at h
    split at h
    · cases h; rfl
    · simp at h
  | succ n ih =>
    intro w out e h
    simp only [walk] at h
    split at h
    · exact ih _ _ _ h
    · simp at h

end Sys2Proof.Machine
end

