-- ==== Sys2Proof/Laws/Encoder.lean ====
section
/-! SUPPORT. What ENCODE's parts do: the packer (41_encode R156, R158), the cache (R154, R155), one payload byte
and the loop (R150). -/

namespace Sys2Proof.Machine

/-! ### The packer -/

/-- The run has packed exactly `bits` over a buffer that held `m`: whole bytes in the buffer, the rest in
`acc`, nothing else written. -/
structure Packed (m : Memory 8) (bits : Path) (r : EncodeRun) : Prop where
  nbits : r.work.nbits = bits.length
  whole : ∀ i < 8 * (bits.length / 8), bitRead r.bitbuf i = bits.getD i false
  acc : ∀ k < 8, r.work.acc.getLsbD (7 - k) = bits.getD (8 * (bits.length / 8) + k) false
  above : ∀ a, bits.length / 8 ≤ a → r.bitbuf.read a = m.read a

theorem packed_start (m : Memory 8) (cc : List (Nat × Path)) :
    Packed m [] { work := EncodeWork.start, cc := cc, bitbuf := m } where
  nbits := rfl
  whole := by simp
  acc := by simp [EncodeWork.start]
  above := by simp

/-- Changing the cache or the payload index packs nothing. -/
theorem Packed.withWork {m : Memory 8} {bits : Path} {r : EncodeRun} (h : Packed m bits r)
    (cc : List (Nat × Path)) (j : Nat) :
    Packed m bits { r with cc := cc, work := { r.work with j := j } } :=
  ⟨h.nbits, h.whole, h.acc, h.above⟩

theorem getD_append_one (bits : Path) (x : Bool) (i : Nat) :
    (bits ++ [x]).getD i false = if i = bits.length then x else bits.getD i false := by
  simp only [List.getD_eq_getElem?_getD]
  rcases Nat.lt_trichotomy i bits.length with h | h | h
  · rw [List.getElem?_append_left h, if_neg (by omega)]
  · subst h; simp
  · rw [List.getElem?_eq_none (by simp; omega), List.getElem?_eq_none (by omega), if_neg (by omega)]

/-- One bit appended (41_encode R156). -/
theorem Packed.appendBit {m : Memory 8} {bits : Path} {r : EncodeRun} (h : Packed m bits r) (x : Bool) :
    Packed m (bits ++ [x]) (appendBit r x) := by
  have hn := h.nbits
  have hacc : ∀ k < 8, (r.work.acc ||| bitAt x r.work.nbits).getLsbD (7 - k) =
      (bits ++ [x]).getD (8 * (bits.length / 8) + k) false := by
    intro k hk
    rw [BitVec.getLsbD_or, h.acc k hk, getLsbD_bitAt, hn, getD_append_one]
    by_cases hb : 8 * (bits.length / 8) + k = bits.length
    · have h7 : 7 - k = 7 - bits.length % 8 := by omega
      rw [if_pos hb, hb]
      simp [h7]
    · have h7 : 7 - k ≠ 7 - bits.length % 8 := by omega
      rw [if_neg hb]
      simp [h7]
  simp only [Machine.appendBit]
  split
  · rename_i h8
    rw [hn] at h8
    have hlen : (bits ++ [x]).length / 8 = bits.length / 8 + 1 := by simp; omega
    have hw : (r.work.nbits + 1) / 8 - 1 = bits.length / 8 := by omega
    refine ⟨by simp [hn], ?_, ?_, ?_⟩
    · intro i hi
      rw [hlen] at hi
      rw [hw, bitRead_write]
      split
      · rename_i hd
        have hk := hacc (i % 8) (by omega)
        rw [show 8 * (bits.length / 8) + i % 8 = i by omega] at hk
        exact hk
      · rename_i hd
        rw [h.whole i (by omega), getD_append_one, if_neg (by omega)]
    · intro k hk
      have : (bits ++ [x]).length ≤ 8 * ((bits ++ [x]).length / 8) + k := by simp; omega
      rw [List.getD_eq_default _ _ this]
      simp
    · intro a ha
      rw [hlen] at ha
      rw [hw, read_write_other _ _ (by omega)]
      exact h.above a (by omega)
  · rename_i h8
    rw [hn] at h8
    have hlen : (bits ++ [x]).length / 8 = bits.length / 8 := by simp; omega
    refine ⟨by simp [hn], ?_, ?_, ?_⟩
    · intro i hi
      rw [hlen] at hi
      rw [h.whole i hi, getD_append_one, if_neg (by omega)]
    · intro k hk
      rw [hlen]
      exact hacc k hk
    · intro a ha
      rw [hlen] at ha
      exact h.above a ha

@[simp] theorem appendBit_j (r : EncodeRun) (x : Bool) : (appendBit r x).work.j = r.work.j := by
  simp only [appendBit]; split <;> rfl

@[simp] theorem appendBit_cc (r : EncodeRun) (x : Bool) : (appendBit r x).cc = r.cc := by
  simp only [appendBit]; split <;> rfl

@[simp] theorem appendBit_draw (r : EncodeRun) (x : Bool) : (appendBit r x).bitbuf.draw = r.bitbuf.draw := by
  simp only [appendBit]; split <;> rfl

@[simp] theorem appendPath_j (r : EncodeRun) (p : Path) : (appendPath r p).work.j = r.work.j := by
  induction p generalizing r with
  | nil => rfl
  | cons x p ih => exact (ih _).trans (appendBit_j r x)

@[simp] theorem appendPath_cc (r : EncodeRun) (p : Path) : (appendPath r p).cc = r.cc := by
  induction p generalizing r with
  | nil => rfl
  | cons x p ih => exact (ih _).trans (appendBit_cc r x)

@[simp] theorem appendPath_draw (r : EncodeRun) (p : Path) : (appendPath r p).bitbuf.draw = r.bitbuf.draw := by
  induction p generalizing r with
  | nil => rfl
  | cons x p ih => exact (ih _).trans (appendBit_draw r x)

/-- A path appended (41_encode R156). -/
theorem Packed.appendPath {m : Memory 8} {bits : Path} {r : EncodeRun} (h : Packed m bits r) (p : Path) :
    Packed m (bits ++ p) (appendPath r p) := by
  induction p generalizing bits r with
  | nil => simpa [Machine.appendPath] using h
  | cons x p ih => simpa [Machine.appendPath] using ih (h.appendBit x)

/-- An appended bit keeps the buffer's canonical form, and lists no byte past the bits. -/
theorem appendBit_bitbuf {r : EncodeRun} {size : Nat} (x : Bool) (hw : r.bitbuf.wf) (hs : r.bitbuf.within size)
    (hfit : r.work.nbits + 1 ≤ 8 * size) :
    (appendBit r x).bitbuf.wf ∧ (appendBit r x).bitbuf.within size ∧
      (appendBit r x).work.nbits = r.work.nbits + 1 := by
  simp only [appendBit]
  split
  · exact ⟨write_wf _ _ hw, write_within _ hs (by omega), rfl⟩
  · exact ⟨hw, hs, rfl⟩

theorem appendPath_bitbuf {r : EncodeRun} {size : Nat} (p : Path) (hw : r.bitbuf.wf) (hs : r.bitbuf.within size)
    (hfit : r.work.nbits + p.length ≤ 8 * size) :
    (appendPath r p).bitbuf.wf ∧ (appendPath r p).bitbuf.within size ∧
      (appendPath r p).work.nbits = r.work.nbits + p.length := by
  induction p generalizing r with
  | nil => exact ⟨hw, hs, rfl⟩
  | cons x p ih =>
    simp only [List.length_cons] at hfit ⊢
    obtain ⟨h1, h2, h3⟩ := appendBit_bitbuf x hw hs (by omega)
    obtain ⟨g1, g2, g3⟩ := ih h1 h2 (by omega)
    exact ⟨g1, g2, by rw [show appendPath r (x :: p) = appendPath (appendBit r x) p from rfl, g3]; omega⟩

/-- The last byte flushed: every bit of the stream in the buffer, the padding zero, nothing above written
(41_encode R158, 20_memory R63). -/
theorem Packed.flush {m : Memory 8} {bits : Path} {r : EncodeRun} (h : Packed m bits r) :
    (flushByte r).work.nbits = bits.length ∧
      (∀ i < 8 * ((bits.length + 7) / 8), bitRead (flushByte r).bitbuf i = bits.getD i false) ∧
      (∀ a, (bits.length + 7) / 8 ≤ a → (flushByte r).bitbuf.read a = m.read a) := by
  have hn := h.nbits
  simp only [flushByte]
  split
  · rename_i h8
    rw [hn] at h8
    exact ⟨hn, fun i hi => h.whole i (by omega), fun a ha => h.above a (by omega)⟩
  · rename_i h8
    rw [hn] at h8 ⊢
    refine ⟨rfl, fun i hi => ?_, fun a ha => ?_⟩
    · rw [bitRead_write]
      split
      · have hk := h.acc (i % 8) (by omega)
        rw [show 8 * (bits.length / 8) + i % 8 = i by omega] at hk
        exact hk
      · exact h.whole i (by omega)
    · rw [read_write_other _ _ (by omega)]
      exact h.above a (by omega)

@[simp] theorem flushByte_cc (r : EncodeRun) : (flushByte r).cc = r.cc := by
  simp only [flushByte]; split <;> rfl

@[simp] theorem flushByte_draw (r : EncodeRun) : (flushByte r).bitbuf.draw = r.bitbuf.draw := by
  simp only [flushByte]; split <;> rfl

theorem flushByte_bitbuf {r : EncodeRun} {size : Nat} (hw : r.bitbuf.wf) (hs : r.bitbuf.within size)
    (hfit : r.work.nbits ≤ 8 * size) : (flushByte r).bitbuf.wf ∧ (flushByte r).bitbuf.within size := by
  simp only [flushByte]
  split
  · exact ⟨hw, hs⟩
  · exact ⟨write_wf _ _ hw, write_within _ hs (by omega)⟩

/-! ### The cache -/

/-- Every cached path is the one a search finds (41_encode R155). -/
def CacheSound (st : State) (cc : List (Nat × Path)) : Prop :=
  ∀ b : Byte, ∀ q, cellsGet cc b.toNat = some q → st.findRootPath b = some q

theorem cacheSound_nil (st : State) : CacheSound st [] := by
  intro b q h
  simp [cellsGet] at h

theorem cachedPath_none {st : State} {cc : List (Nat × Path)} {b : Byte} (hs : CacheSound st cc)
    (h : st.findRootPath b = none) : cachedPath st cc b = none := by
  unfold cachedPath
  split
  · rename_i p hp
    rw [hs b p hp] at h
    simp at h
  · rw [h]

/-- The cache is transparent: it answers what the search finds, and keeps it (41_encode R154, R155). -/
theorem cachedPath_some {st : State} {cc : List (Nat × Path)} {b : Byte} {q : Path} (hs : CacheSound st cc)
    (h : st.findRootPath b = some q) :
    ∃ cc', cachedPath st cc b = some (q, cc') ∧ CacheSound st cc' ∧
      (cc' = cc ∨ cc' = cellsPut cc b.toNat q) ∧
      ∀ v, cellsGet cc' v = if v = b.toNat then some q else cellsGet cc v := by
  unfold cachedPath
  split
  · rename_i p hp
    have := hs b p hp
    rw [h] at this
    cases this
    refine ⟨cc, rfl, hs, Or.inl rfl, fun v => ?_⟩
    split
    · simp_all
    · rfl
  · rw [h]
    refine ⟨_, rfl, ?_, Or.inr rfl, fun v => cellsGet_put _ _ _ _⟩
    intro c p hp
    rw [cellsGet_put] at hp
    split at hp
    · rename_i hc
      cases hp
      rw [BitVec.eq_of_toNat_eq hc]
      exact h
    · exact hs c p hp

/-! ### The payload -/

theorem encodeByte_noPath {p : Params} {st : State} {r : EncodeRun} (hs : CacheSound st r.cc)
    (h : st.findRootPath (st.pay.read r.work.j) = none) : encodeByte p st r = .error (.noPath, r.work.j) := by
  unfold encodeByte
  rw [cachedPath_none hs h]

theorem encodeByte_tooLong {p : Params} {st : State} {r : EncodeRun} {q : Path} (hs : CacheSound st r.cc)
    (h : st.findRootPath (st.pay.read r.work.j) = some q) (hfit : 8 * p.bitbufMax < r.work.nbits + q.length) :
    encodeByte p st r = .error (.streamTooLong, r.work.j) := by
  obtain ⟨cc', h1, _⟩ := cachedPath_some hs h
  unfold encodeByte
  rw [h1]
  exact if_pos hfit

/-- What the loop keeps: `bits` packed is the cache-free stream of the first `j` bytes, and the cache holds
exactly the bytes seen, with the paths a search finds. -/
structure EncodeKeeps (p : Params) (st : State) (m : Memory 8) (r : EncodeRun) : Prop where
  packed : ∃ bits, st.payloadBits r.work.j = some bits ∧ Packed m bits r
  fits : r.work.nbits ≤ 8 * p.bitbufMax
  sound : CacheSound st r.cc
  seen : ∀ b : Byte, cellsGet r.cc b.toNat ≠ none ↔ ∃ j < r.work.j, st.pay.read j = b
  rising : cellsRising r.cc
  below : cellsBelow 256 r.cc
  paths : ∀ x ∈ r.cc, x.2.length ≤ st.root
  draw : r.bitbuf.draw = m.draw
  wf : m.wf → r.bitbuf.wf
  within : m.within p.bitbufMax → r.bitbuf.within p.bitbufMax

theorem encodeKeeps_start (p : Params) (st : State) (m : Memory 8) :
    EncodeKeeps p st m { work := EncodeWork.start, cc := [], bitbuf := m } where
  packed := ⟨[], rfl, packed_start m []⟩
  fits := Nat.zero_le _
  sound := cacheSound_nil st
  seen := by simp [cellsGet, EncodeWork.start]
  rising := List.Pairwise.nil
  below := by simp [cellsBelow]
  paths := by simp
  draw := rfl
  wf := id
  within := id

/-- One payload byte that has a path which fits (41_encode R150). -/
theorem encodeByte_ok {p : Params} {st : State} {m : Memory 8} {r : EncodeRun} {q : Path}
    (hk : EncodeKeeps p st m r) (h : st.findRootPath (st.pay.read r.work.j) = some q)
    (hfit : r.work.nbits + q.length ≤ 8 * p.bitbufMax) :
    ∃ r', encodeByte p st r = .ok r' ∧ EncodeKeeps p st m r' ∧ r'.work.j = r.work.j + 1 ∧
      r'.work.nbits = r.work.nbits + q.length := by
  obtain ⟨cc', h1, h2, h3, h4⟩ := cachedPath_some hk.sound h
  obtain ⟨bits, hb, hp⟩ := hk.packed
  have hp' : Packed m (bits ++ q) (appendPath { r with cc := cc' } q) :=
    Packed.appendPath (r := { r with cc := cc' }) ⟨hp.nbits, hp.whole, hp.acc, hp.above⟩ q
  have hnb : (appendPath { r with cc := cc' } q).work.nbits = r.work.nbits + q.length := by
    rw [hp'.nbits, List.length_append, hp.nbits]
  have hlen : q.length ≤ st.root := by have := (findPath_isPath h).2; omega
  refine ⟨{ (appendPath { r with cc := cc' } q) with
      work := { (appendPath { r with cc := cc' } q).work with j := r.work.j + 1 } }, ?_, ?_, rfl, hnb⟩
  · unfold encodeByte
    rw [h1]
    exact if_neg (by omega)
  · refine ⟨⟨bits ++ q, ?_, ?_⟩, ?_, ?_, ?_, ?_, ?_, ?_, ?_, ?_, ?_⟩
    · simp [State.payloadBits, hb, h]
    · exact ⟨hp'.nbits, hp'.whole, hp'.acc, hp'.above⟩
    · show (appendPath { r with cc := cc' } q).work.nbits ≤ _
      omega
    · simpa using h2
    · intro b
      simp only [appendPath_cc, h4]
      have hseen := hk.seen b
      constructor
      · intro hne
        split at hne
        · rename_i he
          exact ⟨r.work.j, by omega, (BitVec.eq_of_toNat_eq he).symm⟩
        · obtain ⟨j, hj, hb'⟩ := hseen.1 hne
          exact ⟨j, by omega, hb'⟩
      · rintro ⟨j, hj, rfl⟩
        split
        · simp
        · rename_i hne
          have : j ≠ r.work.j := by rintro rfl; exact hne rfl
          exact hseen.2 ⟨j, by omega, rfl⟩
    · simp only [appendPath_cc]
      rcases h3 with rfl | rfl
      · exact hk.rising
      · exact cellsRising_put _ _ hk.rising
    · simp only [appendPath_cc]
      rcases h3 with rfl | rfl
      · exact hk.below
      · exact cellsBelow_put _ hk.below (st.pay.read r.work.j).isLt
    · simp only [appendPath_cc]
      rcases h3 with rfl | rfl
      · exact hk.paths
      · intro x hx
        rcases mem_cellsPut hx with rfl | hx
        · exact hlen
        · exact hk.paths x hx
    · simpa using hk.draw
    · intro hw
      clear h1 h2 h3 h4 hb
      have : ∀ (r0 : EncodeRun) (q : Path), r0.bitbuf.wf → (appendPath r0 q).bitbuf.wf := by
        intro r0 q
        induction q generalizing r0 with
        | nil => exact id
        | cons x q ih =>
          intro h0
          refine ih (appendBit r0 x) ?_
          simp only [appendBit]
          split
          · exact write_wf _ _ h0
          · exact h0
      exact this _ _ (hk.wf hw)
    · intro hs
      have : ∀ (r0 : EncodeRun) (q : Path), r0.work.nbits + q.length ≤ 8 * p.bitbufMax →
          r0.bitbuf.within p.bitbufMax → (appendPath r0 q).bitbuf.within p.bitbufMax := by
        intro r0 q
        induction q generalizing r0 with
        | nil => exact fun _ => id
        | cons x q ih =>
          intro h0 h1
          simp only [List.length_cons] at h0
          refine ih (appendBit r0 x) ?_ ?_
          · have : (appendBit r0 x).work.nbits = r0.work.nbits + 1 := by
              simp only [appendBit]; split <;> rfl
            omega
          · simp only [appendBit]
            split
            · exact write_within _ h1 (by omega)
            · exact h1
      exact this { r with cc := cc' } q hfit (hk.within hs)

/-- The loop over `n` more bytes answers with what it keeps, or raises at the first byte that has no path or
whose path does not fit (41_encode R150, R157, R160). -/
theorem encodeLoop_cases (p : Params) (st : State) (m : Memory 8) (n : Nat) (r : EncodeRun)
    (hk : EncodeKeeps p st m r) :
    (∃ r', encodeLoop p st n r = .ok r' ∧ EncodeKeeps p st m r' ∧ r'.work.j = r.work.j + n) ∨
    (∃ j bits, r.work.j ≤ j ∧ j < r.work.j + n ∧ st.payloadBits j = some bits ∧ bits.length ≤ 8 * p.bitbufMax ∧
      ((st.findRootPath (st.pay.read j) = none ∧ encodeLoop p st n r = .error (.noPath, j)) ∨
        ∃ q, st.findRootPath (st.pay.read j) = some q ∧ 8 * p.bitbufMax < bits.length + q.length ∧
          encodeLoop p st n r = .error (.streamTooLong, j))) := by
  induction n generalizing r with
  | zero => exact Or.inl ⟨r, rfl, hk, rfl⟩
  | succ n ih =>
    obtain ⟨bits, hb, hp⟩ := hk.packed
    have hfit := hk.fits
    rw [hp.nbits] at hfit
    cases hq : st.findRootPath (st.pay.read r.work.j) with
    | none =>
      refine Or.inr ⟨r.work.j, bits, Nat.le_refl _, by omega, hb, hfit, Or.inl ⟨hq, ?_⟩⟩
      simp only [encodeLoop, encodeByte_noPath hk.sound hq]
    | some q =>
      by_cases hlong : 8 * p.bitbufMax < bits.length + q.length
      · refine Or.inr ⟨r.work.j, bits, Nat.le_refl _, by omega, hb, hfit, Or.inr ⟨q, hq, hlong, ?_⟩⟩
        have := encodeByte_tooLong hk.sound hq (by rw [hp.nbits]; exact hlong)
        simp only [encodeLoop, this]
      · obtain ⟨r', h1, h2, h3, _⟩ := encodeByte_ok hk hq (by rw [hp.nbits]; omega)
        have hl : encodeLoop p st (n + 1) r = encodeLoop p st n r' := by simp only [encodeLoop, h1]
        rw [hl]
        rcases ih r' h2 with ⟨r'', g1, g2, g3⟩ | ⟨j, bits', g1, g2, g3⟩
        · exact Or.inl ⟨r'', g1, g2, by omega⟩
        · exact Or.inr ⟨j, bits', by omega, by omega, g3⟩

end Sys2Proof.Machine
end

