-- ==== Sys2Proof/Laws/PerInstr.lean ====
section
/-! SUPPORT. The statements made per instruction: the command word of each command is well formed and decodes
to it (30_encoding R91, R98). -/

namespace Sys2Proof.Laws.CommandWords

/-- The command's word is legal, has the reserved bits zero, and decodes to the command. -/
def Statement (i : Instr) : Prop :=
  i.wellFormed = true ∧ CommandWord.wellFormed (encode i) = true ∧ reservedField (encode i) = 0#56 ∧
    opcodeField (encode i) = opcodeOf i ∧ Sys2Proof.decode (encode i) = .ok i

theorem build : Statement .build := ⟨rfl, by decide, by decide, by decide, by decide⟩

theorem encode : Statement .encode := ⟨rfl, by decide, by decide, by decide, by decide⟩

theorem decode : Statement .decode := ⟨rfl, by decide, by decide, by decide, by decide⟩

end Sys2Proof.Laws.CommandWords
end

