-- ==== Sys2Proof/Laws/State.lean ====
section
/-! SUPPORT. One lemma per field for each named update of the state, all by rfl. -/

namespace Sys2Proof.Machine

variable (s : State)

/-! ### finish -/

@[simp] theorem finish_seq (r : ResultCode) : (s.finish r).seq = .idle := rfl
@[simp] theorem finish_work (r : ResultCode) : (s.finish r).work = .dead := rfl
@[simp] theorem finish_fault (r : ResultCode) : (s.finish r).fault = s.fault := rfl
@[simp] theorem finish_result (r : ResultCode) : (s.finish r).result = r := rfl
@[simp] theorem finish_errInfo (r : ResultCode) : (s.finish r).errInfo = 0#64 := rfl
@[simp] theorem finish_nodeCount (r : ResultCode) : (s.finish r).nodeCount = s.nodeCount := rfl
@[simp] theorem finish_payLen (r : ResultCode) : (s.finish r).payLen = s.payLen := rfl
@[simp] theorem finish_bitCount (r : ResultCode) : (s.finish r).bitCount = s.bitCount := rfl
@[simp] theorem finish_symCount (r : ResultCode) : (s.finish r).symCount = s.symCount := rfl
@[simp] theorem finish_outLen (r : ResultCode) : (s.finish r).outLen = s.outLen := rfl
@[simp] theorem finish_freq (r : ResultCode) : (s.finish r).freq = s.freq := rfl
@[simp] theorem finish_node (r : ResultCode) : (s.finish r).node = s.node := rfl
@[simp] theorem finish_pay (r : ResultCode) : (s.finish r).pay = s.pay := rfl
@[simp] theorem finish_bitbuf (r : ResultCode) : (s.finish r).bitbuf = s.bitbuf := rfl
@[simp] theorem finish_out (r : ResultCode) : (s.finish r).out = s.out := rfl
@[simp] theorem finish_cc (r : ResultCode) : (s.finish r).cc = s.cc := rfl
@[simp] theorem finish_lastRead (r : ResultCode) : (s.finish r).lastRead = s.lastRead := rfl
@[simp] theorem finish_host (r : ResultCode) : (s.finish r).host = s.host := rfl
@[simp] theorem finish_draw (r : ResultCode) : (s.finish r).draw = s.draw := rfl

/-! ### raise -/

@[simp] theorem raise_seq (k : FaultKind) (v : Nat) : (s.raise k v).seq = .idle := rfl
@[simp] theorem raise_work (k : FaultKind) (v : Nat) : (s.raise k v).work = .dead := rfl
@[simp] theorem raise_fault (k : FaultKind) (v : Nat) : (s.raise k v).fault = true := rfl
@[simp] theorem raise_result (k : FaultKind) (v : Nat) : (s.raise k v).result = k.result := rfl
@[simp] theorem raise_errInfo (k : FaultKind) (v : Nat) : (s.raise k v).errInfo = errInfoOf k v := rfl
@[simp] theorem raise_nodeCount (k : FaultKind) (v : Nat) : (s.raise k v).nodeCount = s.nodeCount := rfl
@[simp] theorem raise_payLen (k : FaultKind) (v : Nat) : (s.raise k v).payLen = s.payLen := rfl
@[simp] theorem raise_bitCount (k : FaultKind) (v : Nat) : (s.raise k v).bitCount = s.bitCount := rfl
@[simp] theorem raise_symCount (k : FaultKind) (v : Nat) : (s.raise k v).symCount = s.symCount := rfl
@[simp] theorem raise_outLen (k : FaultKind) (v : Nat) : (s.raise k v).outLen = s.outLen := rfl
@[simp] theorem raise_freq (k : FaultKind) (v : Nat) : (s.raise k v).freq = s.freq := rfl
@[simp] theorem raise_node (k : FaultKind) (v : Nat) : (s.raise k v).node = s.node := rfl
@[simp] theorem raise_pay (k : FaultKind) (v : Nat) : (s.raise k v).pay = s.pay := rfl
@[simp] theorem raise_bitbuf (k : FaultKind) (v : Nat) : (s.raise k v).bitbuf = s.bitbuf := rfl
@[simp] theorem raise_out (k : FaultKind) (v : Nat) : (s.raise k v).out = s.out := rfl
@[simp] theorem raise_cc (k : FaultKind) (v : Nat) : (s.raise k v).cc = s.cc := rfl
@[simp] theorem raise_lastRead (k : FaultKind) (v : Nat) : (s.raise k v).lastRead = s.lastRead := rfl
@[simp] theorem raise_host (k : FaultKind) (v : Nat) : (s.raise k v).host = s.host := rfl
@[simp] theorem raise_draw (k : FaultKind) (v : Nat) : (s.raise k v).draw = s.draw := rfl

/-! ### acknowledge -/

@[simp] theorem acknowledge_seq (v : Word) : (s.acknowledge v).seq = s.seq := rfl
@[simp] theorem acknowledge_work (v : Word) : (s.acknowledge v).work = s.work := rfl
@[simp] theorem acknowledge_fault (v : Word) : (s.acknowledge v).fault = (s.fault && !v.getLsbD 1) := rfl
@[simp] theorem acknowledge_result (v : Word) : (s.acknowledge v).result = s.result := rfl
@[simp] theorem acknowledge_errInfo (v : Word) : (s.acknowledge v).errInfo = s.errInfo := rfl
@[simp] theorem acknowledge_nodeCount (v : Word) : (s.acknowledge v).nodeCount = s.nodeCount := rfl
@[simp] theorem acknowledge_payLen (v : Word) : (s.acknowledge v).payLen = s.payLen := rfl
@[simp] theorem acknowledge_bitCount (v : Word) : (s.acknowledge v).bitCount = s.bitCount := rfl
@[simp] theorem acknowledge_symCount (v : Word) : (s.acknowledge v).symCount = s.symCount := rfl
@[simp] theorem acknowledge_outLen (v : Word) : (s.acknowledge v).outLen = s.outLen := rfl
@[simp] theorem acknowledge_freq (v : Word) : (s.acknowledge v).freq = s.freq := rfl
@[simp] theorem acknowledge_node (v : Word) : (s.acknowledge v).node = s.node := rfl
@[simp] theorem acknowledge_pay (v : Word) : (s.acknowledge v).pay = s.pay := rfl
@[simp] theorem acknowledge_bitbuf (v : Word) : (s.acknowledge v).bitbuf = s.bitbuf := rfl
@[simp] theorem acknowledge_out (v : Word) : (s.acknowledge v).out = s.out := rfl
@[simp] theorem acknowledge_cc (v : Word) : (s.acknowledge v).cc = s.cc := rfl
@[simp] theorem acknowledge_lastRead (v : Word) : (s.acknowledge v).lastRead = s.lastRead := rfl
@[simp] theorem acknowledge_host (v : Word) : (s.acknowledge v).host = s.host := rfl
@[simp] theorem acknowledge_draw (v : Word) : (s.acknowledge v).draw = s.draw := rfl

/-! ### discardTree -/

@[simp] theorem discardTree_seq : (s.discardTree).seq = s.seq := rfl
@[simp] theorem discardTree_work : (s.discardTree).work = s.work := rfl
@[simp] theorem discardTree_fault : (s.discardTree).fault = s.fault := rfl
@[simp] theorem discardTree_result : (s.discardTree).result = s.result := rfl
@[simp] theorem discardTree_errInfo : (s.discardTree).errInfo = s.errInfo := rfl
@[simp] theorem discardTree_nodeCount : (s.discardTree).nodeCount = 0#10 := rfl
@[simp] theorem discardTree_payLen : (s.discardTree).payLen = s.payLen := rfl
@[simp] theorem discardTree_bitCount : (s.discardTree).bitCount = s.bitCount := rfl
@[simp] theorem discardTree_symCount : (s.discardTree).symCount = s.symCount := rfl
@[simp] theorem discardTree_outLen : (s.discardTree).outLen = s.outLen := rfl
@[simp] theorem discardTree_freq : (s.discardTree).freq = s.freq := rfl
@[simp] theorem discardTree_node : (s.discardTree).node = Memory.unwritten 64 s.draw := rfl
@[simp] theorem discardTree_pay : (s.discardTree).pay = s.pay := rfl
@[simp] theorem discardTree_bitbuf : (s.discardTree).bitbuf = s.bitbuf := rfl
@[simp] theorem discardTree_out : (s.discardTree).out = s.out := rfl
@[simp] theorem discardTree_cc : (s.discardTree).cc = s.cc := rfl
@[simp] theorem discardTree_lastRead : (s.discardTree).lastRead = s.lastRead := rfl
@[simp] theorem discardTree_host : (s.discardTree).host = s.host := rfl
@[simp] theorem discardTree_draw : (s.discardTree).draw = s.draw + 1 := rfl

/-! ### discardStream -/

@[simp] theorem discardStream_seq : (s.discardStream).seq = s.seq := rfl
@[simp] theorem discardStream_work : (s.discardStream).work = s.work := rfl
@[simp] theorem discardStream_fault : (s.discardStream).fault = s.fault := rfl
@[simp] theorem discardStream_result : (s.discardStream).result = s.result := rfl
@[simp] theorem discardStream_errInfo : (s.discardStream).errInfo = s.errInfo := rfl
@[simp] theorem discardStream_nodeCount : (s.discardStream).nodeCount = s.nodeCount := rfl
@[simp] theorem discardStream_payLen : (s.discardStream).payLen = s.payLen := rfl
@[simp] theorem discardStream_bitCount : (s.discardStream).bitCount = 0#64 := rfl
@[simp] theorem discardStream_symCount : (s.discardStream).symCount = s.symCount := rfl
@[simp] theorem discardStream_outLen : (s.discardStream).outLen = s.outLen := rfl
@[simp] theorem discardStream_freq : (s.discardStream).freq = s.freq := rfl
@[simp] theorem discardStream_node : (s.discardStream).node = s.node := rfl
@[simp] theorem discardStream_pay : (s.discardStream).pay = s.pay := rfl
@[simp] theorem discardStream_bitbuf : (s.discardStream).bitbuf = Memory.unwritten 8 s.draw := rfl
@[simp] theorem discardStream_out : (s.discardStream).out = s.out := rfl
@[simp] theorem discardStream_cc : (s.discardStream).cc = .unspecified := rfl
@[simp] theorem discardStream_lastRead : (s.discardStream).lastRead = s.lastRead := rfl
@[simp] theorem discardStream_host : (s.discardStream).host = s.host := rfl
@[simp] theorem discardStream_draw : (s.discardStream).draw = s.draw + 1 := rfl

/-! ### discardOutput -/

@[simp] theorem discardOutput_seq : (s.discardOutput).seq = s.seq := rfl
@[simp] theorem discardOutput_work : (s.discardOutput).work = s.work := rfl
@[simp] theorem discardOutput_fault : (s.discardOutput).fault = s.fault := rfl
@[simp] theorem discardOutput_result : (s.discardOutput).result = s.result := rfl
@[simp] theorem discardOutput_errInfo : (s.discardOutput).errInfo = s.errInfo := rfl
@[simp] theorem discardOutput_nodeCount : (s.discardOutput).nodeCount = s.nodeCount := rfl
@[simp] theorem discardOutput_payLen : (s.discardOutput).payLen = s.payLen := rfl
@[simp] theorem discardOutput_bitCount : (s.discardOutput).bitCount = s.bitCount := rfl
@[simp] theorem discardOutput_symCount : (s.discardOutput).symCount = s.symCount := rfl
@[simp] theorem discardOutput_outLen : (s.discardOutput).outLen = 0#64 := rfl
@[simp] theorem discardOutput_freq : (s.discardOutput).freq = s.freq := rfl
@[simp] theorem discardOutput_node : (s.discardOutput).node = s.node := rfl
@[simp] theorem discardOutput_pay : (s.discardOutput).pay = s.pay := rfl
@[simp] theorem discardOutput_bitbuf : (s.discardOutput).bitbuf = s.bitbuf := rfl
@[simp] theorem discardOutput_out : (s.discardOutput).out = Memory.unwritten 8 s.draw := rfl
@[simp] theorem discardOutput_cc : (s.discardOutput).cc = s.cc := rfl
@[simp] theorem discardOutput_lastRead : (s.discardOutput).lastRead = s.lastRead := rfl
@[simp] theorem discardOutput_host : (s.discardOutput).host = s.host := rfl
@[simp] theorem discardOutput_draw : (s.discardOutput).draw = s.draw + 1 := rfl

/-! ### clearCache -/

@[simp] theorem clearCache_seq : (s.clearCache).seq = s.seq := rfl
@[simp] theorem clearCache_work : (s.clearCache).work = s.work := rfl
@[simp] theorem clearCache_fault : (s.clearCache).fault = s.fault := rfl
@[simp] theorem clearCache_result : (s.clearCache).result = s.result := rfl
@[simp] theorem clearCache_errInfo : (s.clearCache).errInfo = s.errInfo := rfl
@[simp] theorem clearCache_nodeCount : (s.clearCache).nodeCount = s.nodeCount := rfl
@[simp] theorem clearCache_payLen : (s.clearCache).payLen = s.payLen := rfl
@[simp] theorem clearCache_bitCount : (s.clearCache).bitCount = s.bitCount := rfl
@[simp] theorem clearCache_symCount : (s.clearCache).symCount = s.symCount := rfl
@[simp] theorem clearCache_outLen : (s.clearCache).outLen = s.outLen := rfl
@[simp] theorem clearCache_freq : (s.clearCache).freq = s.freq := rfl
@[simp] theorem clearCache_node : (s.clearCache).node = s.node := rfl
@[simp] theorem clearCache_pay : (s.clearCache).pay = s.pay := rfl
@[simp] theorem clearCache_bitbuf : (s.clearCache).bitbuf = s.bitbuf := rfl
@[simp] theorem clearCache_out : (s.clearCache).out = s.out := rfl
@[simp] theorem clearCache_cc : (s.clearCache).cc = Cache.cleared := rfl
@[simp] theorem clearCache_lastRead : (s.clearCache).lastRead = s.lastRead := rfl
@[simp] theorem clearCache_host : (s.clearCache).host = s.host := rfl
@[simp] theorem clearCache_draw : (s.clearCache).draw = s.draw := rfl

/-! ### accept -/

@[simp] theorem accept_seq (i : Instr) : (s.accept i).seq = .busy i := rfl
@[simp] theorem accept_work (i : Instr) : (s.accept i).work = Work.start i s := rfl
@[simp] theorem accept_fault (i : Instr) : (s.accept i).fault = s.fault := rfl
@[simp] theorem accept_result (i : Instr) : (s.accept i).result = s.result := rfl
@[simp] theorem accept_errInfo (i : Instr) : (s.accept i).errInfo = s.errInfo := rfl
@[simp] theorem accept_nodeCount (i : Instr) : (s.accept i).nodeCount = s.nodeCount := rfl
@[simp] theorem accept_payLen (i : Instr) : (s.accept i).payLen = s.payLen := rfl
@[simp] theorem accept_bitCount (i : Instr) : (s.accept i).bitCount = s.bitCount := rfl
@[simp] theorem accept_symCount (i : Instr) : (s.accept i).symCount = s.symCount := rfl
@[simp] theorem accept_outLen (i : Instr) : (s.accept i).outLen = s.outLen := rfl
@[simp] theorem accept_freq (i : Instr) : (s.accept i).freq = s.freq := rfl
@[simp] theorem accept_node (i : Instr) : (s.accept i).node = s.node := rfl
@[simp] theorem accept_pay (i : Instr) : (s.accept i).pay = s.pay := rfl
@[simp] theorem accept_bitbuf (i : Instr) : (s.accept i).bitbuf = s.bitbuf := rfl
@[simp] theorem accept_out (i : Instr) : (s.accept i).out = s.out := rfl
@[simp] theorem accept_cc (i : Instr) : (s.accept i).cc = s.cc := rfl
@[simp] theorem accept_lastRead (i : Instr) : (s.accept i).lastRead = s.lastRead := rfl
@[simp] theorem accept_host (i : Instr) : (s.accept i).host = s.host := rfl
@[simp] theorem accept_draw (i : Instr) : (s.accept i).draw = s.draw := rfl

/-! ### platformReset -/

@[simp] theorem platformReset_seq : s.platformReset.seq = .idle := rfl
@[simp] theorem platformReset_work : s.platformReset.work = .dead := rfl
@[simp] theorem platformReset_fault : s.platformReset.fault = false := rfl
@[simp] theorem platformReset_result : s.platformReset.result = .ok := rfl
@[simp] theorem platformReset_errInfo : s.platformReset.errInfo = 0#64 := rfl
@[simp] theorem platformReset_nodeCount : s.platformReset.nodeCount = 0#10 := rfl
@[simp] theorem platformReset_payLen : s.platformReset.payLen = 0#64 := rfl
@[simp] theorem platformReset_bitCount : s.platformReset.bitCount = 0#64 := rfl
@[simp] theorem platformReset_symCount : s.platformReset.symCount = 0#64 := rfl
@[simp] theorem platformReset_outLen : s.platformReset.outLen = 0#64 := rfl
@[simp] theorem platformReset_freq : s.platformReset.freq = Memory.unwritten 64 s.draw := rfl
@[simp] theorem platformReset_node : s.platformReset.node = Memory.unwritten 64 (s.draw + 1) := rfl
@[simp] theorem platformReset_pay : s.platformReset.pay = Memory.unwritten 8 (s.draw + 2) := rfl
@[simp] theorem platformReset_bitbuf : s.platformReset.bitbuf = Memory.unwritten 8 (s.draw + 3) := rfl
@[simp] theorem platformReset_out : s.platformReset.out = Memory.unwritten 8 (s.draw + 4) := rfl
@[simp] theorem platformReset_cc : s.platformReset.cc = Cache.cleared := rfl
@[simp] theorem platformReset_lastRead : s.platformReset.lastRead = s.lastRead := rfl
@[simp] theorem platformReset_host : s.platformReset.host = s.host := rfl
@[simp] theorem platformReset_draw : s.platformReset.draw = s.draw + 5 := rfl

/-! ### readLoc through the accept and the host's queue -/

/-- What the host can read does not depend on what it has yet to do. -/
@[simp] theorem readLoc_host (rest : List HostEvent) (l : Loc) : ({ s with host := rest } : State).readLoc l = s.readLoc l := by
  cases l <;> rfl

end Sys2Proof.Machine
end

