-- ==== Sys2Proof/Laws/Step.lean ====
section
/-! SUPPORT. Everything a step can do, said once (20_memory R72), and what exec is for each command. -/

namespace Sys2Proof.Machine

/-- Every command answers a next state, its effect (60_exceptions R214, R215). -/
theorem exec_eq (i : Instr) (s : State) : exec i s = .next (match i with
    | .build => buildEffect true s
    | .encode => encodeEffect Config.platform s
    | .decode => decodeEffect Config.platform s) := by
  cases i <;> rfl

theorem presentCommand_cases {s t : State} {w : Word} (h : presentCommand s w = .next t) :
    (∃ r, decode w = .error r ∧ t = s.rejectCommand w) ∨
    (∃ i, decode w = .ok i ∧ ((nextIsEarly s.host = true ∧ t = s.accept i) ∨
      (nextIsEarly s.host = false ∧ exec i (s.accept i) = .next t))) := by
  unfold presentCommand at h
  split at h
  · rename_i r hd
    exact Or.inl ⟨r, hd, by cases h; rfl⟩
  · rename_i i hd
    refine Or.inr ⟨i, hd, ?_⟩
    split at h
    · rename_i he
      exact Or.inl ⟨he, by cases h; rfl⟩
    · rename_i he
      exact Or.inr ⟨by simpa using he, h⟩

theorem hostWrite_cases {s t : State} {l : Loc} {v : Word} (h : hostWrite s l v = .next t) :
    (s.seq.isBusy = true ∧ t = s) ∨ (s.seq.isBusy = false ∧ l ≠ .cmd ∧ t = s.writeLoc l v) ∨
      (s.seq.isBusy = false ∧ l = .cmd ∧ presentCommand s v = .next t) := by
  unfold hostWrite at h
  split at h
  · rename_i hb
    exact Or.inl ⟨hb, by cases h; rfl⟩
  · rename_i hb
    have hb : s.seq.isBusy = false := by simpa using hb
    right
    split at h
    · exact Or.inr ⟨hb, rfl, h⟩
    · rename_i hl
      exact Or.inl ⟨hb, hl, by cases h; rfl⟩

/-- Everything an act of the outside can do. -/
theorem perform_cases {p : Params} {s t : State} {a : HostAct} (h : perform p s a = .next t) :
    (a = .reset ∧ t = s.platformReset) ∨
    (∃ addr bytes l, a = .read addr bytes ∧ busTarget p addr bytes = .loc l ∧ t = s.hostRead l) ∨
    (∃ addr bytes v l, a = .write addr bytes v ∧ busTarget p addr bytes = .loc l ∧ hostWrite s l v = .next t) := by
  cases a with
  | reset => exact Or.inl ⟨rfl, by simp only [perform] at h; cases h; rfl⟩
  | read addr bytes =>
    simp only [perform] at h
    split at h
    · cases h
    · cases h
    · rename_i l hl
      exact Or.inr (Or.inl ⟨addr, bytes, l, rfl, hl, by cases h; rfl⟩)
  | write addr bytes v =>
    simp only [perform] at h
    split at h
    · cases h
    · cases h
    · rename_i l hl
      exact Or.inr (Or.inr ⟨addr, bytes, v, l, rfl, hl, h⟩)

/-- Everything a step can do: end the running command, stay idle, or perform the outside's next act. -/
theorem step_cases {s t : State} (h : step s = .next t) :
    (∃ i, s.seq = .busy i ∧ nextIsEarly s.host = false ∧ exec i s = .next t) ∨
    (s.seq = .idle ∧ s.host = [] ∧ t = s) ∨
    (∃ e rest, s.host = e :: rest ∧ (s.seq = .idle ∨ e.early = true) ∧
      perform Config.platform { s with host := rest } e.act = .next t) := by
  unfold step advance performNext at h
  cases hs : s.seq with
  | idle =>
    simp only [hs] at h
    cases hh : s.host with
    | nil =>
      simp only [hh] at h
      exact Or.inr (Or.inl ⟨rfl, rfl, by cases h; rfl⟩)
    | cons e rest =>
      simp only [hh] at h
      exact Or.inr (Or.inr ⟨e, rest, rfl, Or.inl rfl, h⟩)
  | busy i =>
    simp only [hs] at h
    cases hh : s.host with
    | nil =>
      simp only [hh, nextIsEarly] at h
      exact Or.inl ⟨i, rfl, rfl, h⟩
    | cons e rest =>
      simp only [hh, nextIsEarly] at h
      cases he : e.early with
      | false =>
        simp only [he] at h
        exact Or.inl ⟨i, rfl, by simp [nextIsEarly, he], h⟩
      | true =>
        simp only [he, if_true] at h
        exact Or.inr (Or.inr ⟨e, rest, rfl, Or.inr he, h⟩)

/-- The step of an act of the outside that lands now. -/
theorem step_perform {s : State} {e : HostEvent} {rest : List HostEvent} (hh : s.host = e :: rest)
    (hs : s.seq = .idle ∨ e.early = true) : step s = perform Config.platform { s with host := rest } e.act := by
  unfold step advance performNext
  rcases hs with hs | he
  · simp only [hs, hh]
  · cases hs : s.seq with
    | idle => simp only [hh]
    | busy i => simp only [hh, nextIsEarly, he, if_true]

end Sys2Proof.Machine
end

