-- ==== Sys2Proof/Laws/TreeBuilder.lean ====
section
/-! SUPPORT. What BUILD's parts do: the leaves and their order (40_build R120, R123), a pick (R124), a merge
step (R125, R126), and what the merge keeps (R128, R130, R131). -/

namespace Sys2Proof.Machine

/-! ### The order of the leaves -/

theorem leafBefore_total {x y : Byte × Word} (h : leafBefore x y = false) (hne : x ≠ y) :
    leafBefore y x = true := by
  obtain ⟨a, f⟩ := x
  obtain ⟨b, g⟩ := y
  simp only [leafBefore, Bool.or_eq_false_iff, Bool.or_eq_true, decide_eq_true_eq, decide_eq_false_iff_not,
    Bool.and_eq_true, Bool.and_eq_false_iff, beq_iff_eq, beq_eq_false_iff_ne] at h ⊢
  rcases Nat.lt_trichotomy f.toNat g.toNat with h1 | h1 | h1
  · omega
  · have hfg : f = g := BitVec.eq_of_toNat_eq h1
    subst hfg
    have hab : a.toNat ≠ b.toNat := fun hh => hne (by rw [BitVec.eq_of_toNat_eq hh])
    rcases h.2 with h2 | h2
    · exact absurd rfl h2
    · exact Or.inr ⟨rfl, by omega⟩
  · exact Or.inl h1

theorem leafBefore_trans {x y z : Byte × Word} (h1 : leafBefore x y = true) (h2 : leafBefore y z = true) :
    leafBefore x z = true := by
  obtain ⟨a, f⟩ := x
  obtain ⟨b, g⟩ := y
  obtain ⟨c, k⟩ := z
  simp only [leafBefore, Bool.or_eq_true, decide_eq_true_eq, Bool.and_eq_true, beq_iff_eq] at *
  rcases h1 with h1 | ⟨rfl, h1⟩
  · rcases h2 with h2 | ⟨rfl, h2⟩
    · exact Or.inl (by omega)
    · exact Or.inl h1
  · rcases h2 with h2 | ⟨rfl, h2⟩
    · exact Or.inl h2
    · exact Or.inr ⟨rfl, by omega⟩

theorem insertLeaf_perm (x : Byte × Word) (l : List (Byte × Word)) : (insertLeaf x l).Perm (x :: l) := by
  induction l with
  | nil => exact .refl _
  | cons y rest ih =>
    simp only [insertLeaf]
    split
    · exact .refl _
    · exact ((ih.cons y).trans (.swap x y rest))

/-- The sort loses and invents no leaf. -/
theorem sortLeaves_perm (l : List (Byte × Word)) : (sortLeaves l).Perm l := by
  induction l with
  | nil => exact .refl _
  | cons x rest ih => exact (insertLeaf_perm x _).trans (ih.cons x)

theorem insertLeaf_sorted {x : Byte × Word} {l : List (Byte × Word)}
    (h : l.Pairwise (fun a b => leafBefore a b = true)) (hx : x ∉ l) :
    (insertLeaf x l).Pairwise (fun a b => leafBefore a b = true) := by
  induction l with
  | nil => simp [insertLeaf]
  | cons y rest ih =>
    obtain ⟨h1, h2⟩ := List.pairwise_cons.1 h
    simp only [List.mem_cons, not_or] at hx
    simp only [insertLeaf]
    split
    · rename_i hb
      refine List.pairwise_cons.2 ⟨fun z hz => ?_, h⟩
      rcases List.mem_cons.1 hz with rfl | hz
      · exact hb
      · exact leafBefore_trans hb (h1 z hz)
    · rename_i hb
      refine List.pairwise_cons.2 ⟨fun z hz => ?_, ih h2 hx.2⟩
      rcases List.mem_cons.1 ((insertLeaf_perm x rest).mem_iff.1 hz) with rfl | hz
      · exact leafBefore_total (by simpa using hb) hx.1
      · exact h1 z hz

/-- Leaves that are all distinct come out in strict order (40_build R123). -/
theorem sortLeaves_sorted {l : List (Byte × Word)} (h : l.Nodup) :
    (sortLeaves l).Pairwise (fun a b => leafBefore a b = true) := by
  induction l with
  | nil => exact .nil
  | cons x rest ih =>
    obtain ⟨h1, h2⟩ := List.nodup_cons.1 h
    exact insertLeaf_sorted (ih h2) (fun hm => h1 ((sortLeaves_perm rest).mem_iff.1 hm))

/-! ### The leaves of a table -/

/-- The leaves of a table of at most 256 entries: its non-zero entries with their byte values. -/
theorem mem_nonzeroLeaves {table : List Word} (hlen : table.length ≤ 256) (b : Byte) (f : Word) :
    (b, f) ∈ nonzeroLeaves table ↔ table[b.toNat]? = some f ∧ f ≠ 0#64 := by
  simp only [nonzeroLeaves, List.mem_map, List.mem_filter, Prod.mk.injEq, Prod.exists,
    List.mem_zipIdx_iff_getElem?, bne_iff_ne]
  constructor
  · rintro ⟨g, i, ⟨hi, hg⟩, rfl, rfl⟩
    have : i < table.length := (List.getElem?_eq_some_iff.1 hi).1
    rw [show (BitVec.ofNat 8 i).toNat = i by simp; omega]
    exact ⟨hi, hg⟩
  · rintro ⟨hi, hf⟩
    exact ⟨f, b.toNat, ⟨hi, hf⟩, by simp, rfl⟩

theorem length_nonzeroLeaves (table : List Word) :
    (nonzeroLeaves table).length = (table.filter (fun f => f != 0#64)).length := by
  have : ∀ (l : List Word) (k : Nat), ((l.zipIdx k).filter (fun x => x.1 != 0#64)).length =
      (l.filter (fun f => f != 0#64)).length := by
    intro l
    induction l with
    | nil => intro k; rfl
    | cons x rest ih =>
      intro k
      simp only [List.zipIdx_cons, List.filter_cons]
      split <;> simp [ih]
  simp [nonzeroLeaves, this]

theorem sum_nonzeroLeaves (table : List Word) :
    ((nonzeroLeaves table).map (fun x => x.2.toNat)).sum = (table.map BitVec.toNat).sum := by
  have : ∀ (l : List Word) (k : Nat), (((l.zipIdx k).filter (fun x => x.1 != 0#64)).map (fun x => x.1.toNat)).sum =
      (l.map BitVec.toNat).sum := by
    intro l
    induction l with
    | nil => intro k; rfl
    | cons x rest ih =>
      intro k
      simp only [List.zipIdx_cons, List.filter_cons]
      split
      · simp [ih]
      · rename_i h
        have hx : x = 0#64 := by simpa using h
        simp [ih, hx]
  simpa [nonzeroLeaves, Function.comp_def] using this table 0

theorem nodup_nonzeroLeaves {table : List Word} (hlen : table.length ≤ 256) : (nonzeroLeaves table).Nodup := by
  have h1 : (table.zipIdx.filter (fun x => x.1 != 0#64)).Pairwise (fun a b => a.2 < b.2) := by
    apply List.Pairwise.filter
    rw [List.pairwise_iff_getElem]
    intro i j hi hj hij
    simpa using hij
  have h2 : ∀ x ∈ table.zipIdx.filter (fun x => x.1 != 0#64), x.2 < 256 := by
    intro x hx
    have := (List.mem_filter.1 hx).1
    obtain ⟨g, i⟩ := x
    have := (List.getElem?_eq_some_iff.1 (List.mem_zipIdx_iff_getElem?.1 this)).1
    show i < 256
    omega
  unfold nonzeroLeaves
  rw [List.Nodup, List.pairwise_map]
  refine h1.imp_of_mem ?_
  intro a b ha hb hab heq
  have h3 := congrArg (fun x => x.1.toNat) heq
  have := h2 a ha
  have := h2 b hb
  simp at h3
  omega

/-! ### Picks -/

/-- The frequency of entry `i` as a number. -/
def fr (nodes : List Node) (i : Nat) : Nat := (freqAt nodes i).toNat

/-- Entry `j` has been picked. -/
abbrev BuildWork.used (w : BuildWork) (j : Nat) : Prop := j < w.lc ∨ (w.leaves ≤ j ∧ j < w.bc)

/-- Entry `j` can be picked. -/
abbrev BuildWork.avail (w : BuildWork) (j : Nat) : Prop :=
  (w.lc ≤ j ∧ j < w.leaves) ∨ (w.bc ≤ j ∧ j < w.nf)

/-- Both segments are in order and the cursors stand in them (40_build R124, R130 (I1), (I2)). -/
structure InOrder (nodes : List Node) (w : BuildWork) : Prop where
  lc : w.lc ≤ w.leaves
  bc : w.leaves ≤ w.bc
  bcnf : w.bc ≤ w.nf
  leafOrder : ∀ i j, i ≤ j → j < w.leaves → fr nodes i ≤ fr nodes j
  branchOrder : ∀ i j, w.leaves ≤ i → i ≤ j → j < w.nf → fr nodes i ≤ fr nodes j

/-- The whole of a pick: where anything is available it takes an entry of least frequency and moves the one
cursor past it (40_build R124). -/
theorem pick_some {nodes : List Node} {w : BuildWork} (h : InOrder nodes w) (hav : w.lc < w.leaves ∨ w.bc < w.nf) :
    ∃ a w', pick nodes w = some (a, w') ∧ w.avail a ∧ (∀ j, w.avail j → fr nodes a ≤ fr nodes j) ∧
      w'.leaves = w.leaves ∧ w'.nf = w.nf ∧ w'.k = w.k ∧
      ((a = w.lc ∧ w.lc < w.leaves ∧ w'.lc = w.lc + 1 ∧ w'.bc = w.bc) ∨
        (a = w.bc ∧ w.bc < w.nf ∧ w'.lc = w.lc ∧ w'.bc = w.bc + 1)) := by
  have hbc := h.bc
  unfold pick
  split
  · rename_i hc
    refine ⟨_, _, rfl, Or.inl ⟨Nat.le_refl _, hc.1⟩, ?_, rfl, rfl, rfl, Or.inl ⟨rfl, hc.1, rfl, rfl⟩⟩
    rintro j (⟨h1, h2⟩ | ⟨h1, h2⟩)
    · exact h.leafOrder _ _ h1 h2
    · rcases hc.2 with h3 | h3
      · omega
      · exact Nat.le_trans h3 (h.branchOrder _ _ hbc h1 h2)
  · rename_i hc
    split
    · rename_i hb
      refine ⟨_, _, rfl, Or.inr ⟨Nat.le_refl _, hb⟩, ?_, rfl, rfl, rfl, Or.inr ⟨rfl, hb, rfl, rfl⟩⟩
      rintro j (⟨h1, h2⟩ | ⟨h1, h2⟩)
      · have h3 : ¬ (fr nodes w.lc ≤ fr nodes w.bc) := fun h4 => hc ⟨by omega, Or.inr h4⟩
        have := h.leafOrder _ _ h1 h2
        omega
      · exact h.branchOrder _ _ hbc h1 h2
    · omega

/-! ### The merge -/

theorem freqAt_append_left {nodes : List Node} {i : Nat} (h : i < nodes.length) (x : Node) :
    freqAt (nodes ++ [x]) i = freqAt nodes i := by
  simp [freqAt, List.getElem?_append_left h]

theorem freqAt_append_last (nodes : List Node) (x : Node) : freqAt (nodes ++ [x]) nodes.length = x.freq := by
  simp [freqAt]

@[simp] theorem freq_joinNodes (side : Bool) (a b : Nat) (f : Word) : (joinNodes side a b f).freq = f := by
  cases side <;> rfl

/-- What the merge keeps from step to step (40_build R125, R128, R130, R131): `ls` are the sorted leaves. -/
structure Merging (side : Bool) (ls nodes : List Node) (w : BuildWork) : Prop where
  leaves : w.leaves = ls.length
  starts : ∀ i < ls.length, nodes[i]? = ls[i]?
  nf : nodes.length = w.nf
  count : w.nf = w.leaves + w.k
  inOrder : InOrder nodes w
  last : 0 < w.k → w.bc < w.nf
  picked : w.lc + w.bc = w.leaves + 2 * w.k
  branch : ∀ i, w.leaves ≤ i → i < w.nf → ∃ a b g, nodes[i]? = some (joinNodes side a b g) ∧ a ≠ b ∧
    a < i ∧ b < i ∧ w.used a ∧ w.used b ∧ g.toNat = fr nodes a + fr nodes b ∧ fr nodes a ≤ fr nodes b
  parent : ∀ j, w.used j → ∃! i, (w.leaves ≤ i ∧ i < w.nf) ∧
    ∃ a b g, nodes[i]? = some (joinNodes side a b g) ∧ (a = j ∨ b = j)
  order : ∀ j j', w.used j → w.avail j' → fr nodes j ≤ fr nodes j'
  total : (∑ j ∈ Finset.Ico w.lc w.leaves, fr nodes j) + (∑ j ∈ Finset.Ico w.bc w.nf, fr nodes j) =
    ∑ j ∈ Finset.range ls.length, fr ls j

/-- Two available entries together are at most the whole. -/
theorem Merging.two_le_total {side : Bool} {ls nodes : List Node} {w : BuildWork} (h : Merging side ls nodes w)
    {a b : Nat} (ha : w.avail a) (hb : w.avail b) (hab : a ≠ b) :
    fr nodes a + fr nodes b ≤ ∑ j ∈ Finset.range ls.length, fr ls j := by
  rw [← h.total]
  have hd : Disjoint (Finset.Ico w.lc w.leaves) (Finset.Ico w.bc w.nf) := by
    rw [Finset.disjoint_left]
    intro j h1 h2
    have := h.inOrder.bc
    simp at h1 h2
    omega
  rw [← Finset.sum_union hd, ← Finset.sum_pair hab]
  apply Finset.sum_le_sum_of_subset
  intro j hj
  simp only [Finset.mem_insert, Finset.mem_singleton] at hj
  simp only [Finset.mem_union, Finset.mem_Ico]
  rcases hj with rfl | rfl
  · exact ha
  · exact hb

theorem merging_start (side : Bool) {ls : List Node}
    (hs : ∀ i j, i ≤ j → j < ls.length → fr ls i ≤ fr ls j) :
    Merging side ls ls (BuildWork.start ls.length) where
  leaves := rfl
  starts := fun _ _ => rfl
  nf := rfl
  count := rfl
  inOrder := ⟨Nat.zero_le _, Nat.le_refl _, Nat.le_refl _, hs, fun i j h1 h2 h3 => by
    simp only [BuildWork.start] at h1 h3; omega⟩
  last := fun h => absurd h (by simp [BuildWork.start])
  picked := by simp [BuildWork.start]
  branch := fun i h1 h2 => by simp only [BuildWork.start] at h1 h2; omega
  parent := fun j h => by simp [BuildWork.used, BuildWork.start] at h; omega
  order := fun j j' h => by simp [BuildWork.used, BuildWork.start] at h; omega
  total := by simp [BuildWork.start]

/-- What two picks one after the other do: they take the two entries of least frequency. -/
structure TwoPicks (nodes : List Node) (w : BuildWork) (a b : Nat) (w2 : BuildWork) : Prop where
  leaves : w2.leaves = w.leaves
  nf : w2.nf = w.nf
  k : w2.k = w.k
  cursors : w2.lc ≤ w.leaves ∧ w.leaves ≤ w2.bc ∧ w2.bc ≤ w.nf ∧ w2.lc + w2.bc = w.lc + w.bc + 2
  used : ∀ j, w2.used j ↔ w.used j ∨ j = a ∨ j = b
  avail : ∀ j, w2.avail j ↔ w.avail j ∧ j ≠ a ∧ j ≠ b
  availA : w.avail a
  availB : w.avail b
  ne : a ≠ b
  le : fr nodes a ≤ fr nodes b
  least : ∀ j, w.avail j → j ≠ a → fr nodes b ≤ fr nodes j
  total : (∑ j ∈ Finset.Ico w.lc w.leaves, fr nodes j) + (∑ j ∈ Finset.Ico w.bc w.nf, fr nodes j) =
    fr nodes a + fr nodes b +
      ((∑ j ∈ Finset.Ico w2.lc w.leaves, fr nodes j) + (∑ j ∈ Finset.Ico w2.bc w.nf, fr nodes j))

/-- The sum over what one cursor has left, less the entry picked. -/
theorem sum_pick (nodes : List Node) {lo hi : Nat} (h : lo < hi) :
    ∑ j ∈ Finset.Ico lo hi, fr nodes j = fr nodes lo + ∑ j ∈ Finset.Ico (lo + 1) hi, fr nodes j :=
  Finset.sum_eq_sum_Ico_succ_bot h _

theorem twoPicks {nodes : List Node} {w : BuildWork} (h : InOrder nodes w)
    (hav : w.lc + w.bc + 2 ≤ w.leaves + w.nf) :
    ∃ a b w1 w2, pick nodes w = some (a, w1) ∧ pick nodes w1 = some (b, w2) ∧ TwoPicks nodes w a b w2 := by
  have hlc := h.lc
  have hbc := h.bc
  have hbcnf := h.bcnf
  obtain ⟨a, w1, hp1, ha, hamin, e1, e2, e3, hc1⟩ := pick_some h (by omega)
  have ho1 : InOrder nodes w1 := by
    refine ⟨by omega, by omega, by omega, ?_, ?_⟩
    · rw [e1]; exact h.leafOrder
    · rw [e1, e2]; exact h.branchOrder
  obtain ⟨b, w2, hp2, hb, hbmin, g1, g2, g3, hc2⟩ := pick_some ho1 (by omega)
  have hb1 : w.avail b := by simp only [BuildWork.avail] at hb ⊢; omega
  have hb2 : a ≠ b := by simp only [BuildWork.avail] at hb; omega
  refine ⟨a, b, w1, w2, hp1, hp2, by omega, by omega, by omega, by omega, ?_, ?_, ha, hb1, hb2, hamin b hb1, ?_, ?_⟩
  · intro j; simp only [BuildWork.used]; omega
  · intro j; simp only [BuildWork.avail]; omega
  · intro j hj hne
    refine hbmin j ?_
    simp only [BuildWork.avail] at hj ⊢
    omega
  · rcases hc1 with ⟨rfl, h1, h2, h3⟩ | ⟨rfl, h1, h2, h3⟩ <;> rcases hc2 with ⟨rfl, h4, h5, h6⟩ | ⟨rfl, h4, h5, h6⟩
    · rw [h2, e1] at h4
      rw [sum_pick nodes h1, h5, h6, h3, h2, sum_pick nodes h4]; omega
    · rw [h3, e2] at h4
      rw [sum_pick nodes h1, sum_pick nodes h4, h5, h6, h2, h3]; omega
    · rw [h2, e1] at h4
      rw [sum_pick nodes h1, sum_pick nodes h4, h5, h6, h2, h3]; omega
    · rw [h3, e2] at h4
      rw [sum_pick nodes h1, h5, h6, h2, h3, sum_pick nodes h4]; omega

theorem joinNodes_inj {side : Bool} {a b c d : Nat} {f g : Word}
    (h : joinNodes side a b f = joinNodes side c d g) : a = c ∧ b = d := by
  cases side <;> simp [joinNodes] at h <;> exact ⟨by omega, by omega⟩

/-- The working values after a branch is appended. -/
abbrev BuildWork.appended (w : BuildWork) : BuildWork := { w with nf := w.nf + 1, k := w.k + 1 }

section Append

variable {side : Bool} {ls nodes : List Node} {w w2 : BuildWork} {a b : Nat} {g : Word}

theorem fr_old (h : Merging side ls nodes w) (x : Node) {i : Nat} (hi : i < w.nf) :
    fr (nodes ++ [x]) i = fr nodes i := by
  have := h.nf
  simp only [fr, freqAt_append_left (show i < nodes.length by omega)]

theorem fr_new (h : Merging side ls nodes w) (hg : g.toNat = fr nodes a + fr nodes b) :
    fr (nodes ++ [joinNodes side a b g]) w.nf = fr nodes a + fr nodes b := by
  rw [← h.nf]
  simp only [fr, freqAt_append_last, freq_joinNodes]
  exact hg

theorem getElem?_old (h : Merging side ls nodes w) (x : Node) {i : Nat} (hi : i < w.nf) :
    (nodes ++ [x])[i]? = nodes[i]? :=
  List.getElem?_append_left (by have := h.nf; omega)

theorem getElem?_new (h : Merging side ls nodes w) (x : Node) : (nodes ++ [x])[w.nf]? = some x := by
  rw [← h.nf]; simp

theorem used_lt (h : Merging side ls nodes w) {j : Nat} (hj : w.used j) : j < w.nf := by
  have := h.inOrder.lc
  have := h.inOrder.bc
  have := h.inOrder.bcnf
  simp only [BuildWork.used] at hj
  omega

theorem avail_lt (h : Merging side ls nodes w) {j : Nat} (hj : w.avail j) : j < w.nf := by
  have := h.inOrder.bc
  have := h.inOrder.bcnf
  simp only [BuildWork.avail] at hj
  omega

theorem not_used_of_avail (h : Merging side ls nodes w) {j : Nat} (hj : w.avail j) : ¬ w.used j := by
  have := h.inOrder.lc
  have := h.inOrder.bc
  simp only [BuildWork.avail, BuildWork.used] at hj ⊢
  omega

/-- The new branch keeps both segments in order. -/
theorem append_inOrder (h : Merging side ls nodes w) (hp : TwoPicks nodes w a b w2)
    (hg : g.toNat = fr nodes a + fr nodes b) : InOrder (nodes ++ [joinNodes side a b g]) w2.appended := by
  obtain ⟨c1, c2, c3, _⟩ := hp.cursors
  have hnf := hp.nf
  have hleaves := hp.leaves
  have hcount := h.count
  refine ⟨by show w2.lc ≤ w2.leaves; omega, by show w2.leaves ≤ w2.bc; omega, by show w2.bc ≤ w2.nf + 1; omega,
    ?_, ?_⟩
  · intro i j hij hj
    change j < w2.leaves at hj
    rw [fr_old h _ (by omega), fr_old h _ (by omega)]
    exact h.inOrder.leafOrder i j hij (by omega)
  · intro i j hi hij hj
    change w2.leaves ≤ i at hi
    change j < w2.nf + 1 at hj
    by_cases hjn : j = w.nf
    · subst hjn
      by_cases hin : i = w.nf
      · rw [hin]
      · rw [fr_old h _ (by omega), fr_new h hg]
        obtain ⟨a', b', g', hi1, _, _, _, hu1, hu2, hsum, _⟩ := h.branch i (by omega) (by omega)
        have : fr nodes i = g'.toNat := by simp [fr, freqAt, hi1]
        rw [this, hsum]
        exact Nat.add_le_add (h.order _ _ hu1 hp.availA) (h.order _ _ hu2 hp.availB)
    · rw [fr_old h _ (by omega), fr_old h _ (by omega)]
      exact h.inOrder.branchOrder i j (by omega) hij (by omega)

theorem append_branch (h : Merging side ls nodes w) (hp : TwoPicks nodes w a b w2)
    (hg : g.toNat = fr nodes a + fr nodes b) (i : Nat) (hi : w2.appended.leaves ≤ i) (hin : i < w2.appended.nf) :
    ∃ c d k, (nodes ++ [joinNodes side a b g])[i]? = some (joinNodes side c d k) ∧ c ≠ d ∧ c < i ∧ d < i ∧
      w2.appended.used c ∧ w2.appended.used d ∧
      k.toNat = fr (nodes ++ [joinNodes side a b g]) c + fr (nodes ++ [joinNodes side a b g]) d ∧
      fr (nodes ++ [joinNodes side a b g]) c ≤ fr (nodes ++ [joinNodes side a b g]) d := by
  change w2.leaves ≤ i at hi
  change i < w2.nf + 1 at hin
  rw [hp.leaves] at hi
  rw [hp.nf] at hin
  by_cases hii : i = w.nf
  · subst hii
    refine ⟨a, b, g, getElem?_new h _, hp.ne, avail_lt h hp.availA, avail_lt h hp.availB,
      (hp.used a).2 (Or.inr (Or.inl rfl)), (hp.used b).2 (Or.inr (Or.inr rfl)), ?_, ?_⟩
    · rw [fr_old h _ (avail_lt h hp.availA), fr_old h _ (avail_lt h hp.availB)]; exact hg
    · rw [fr_old h _ (avail_lt h hp.availA), fr_old h _ (avail_lt h hp.availB)]; exact hp.le
  · obtain ⟨c, d, k, hi1, hne, hla, hlb, hu1, hu2, hsum, hle⟩ := h.branch i hi (by omega)
    refine ⟨c, d, k, by rw [getElem?_old h _ (by omega)]; exact hi1, hne, hla, hlb, (hp.used c).2 (Or.inl hu1),
      (hp.used d).2 (Or.inl hu2), ?_, ?_⟩
    · rw [fr_old h _ (used_lt h hu1), fr_old h _ (used_lt h hu2)]; exact hsum
    · rw [fr_old h _ (used_lt h hu1), fr_old h _ (used_lt h hu2)]; exact hle

theorem append_parent (h : Merging side ls nodes w) (hp : TwoPicks nodes w a b w2) (j : Nat)
    (hj : w2.appended.used j) :
    ∃! i, (w2.appended.leaves ≤ i ∧ i < w2.appended.nf) ∧
      ∃ c d k, (nodes ++ [joinNodes side a b g])[i]? = some (joinNodes side c d k) ∧ (c = j ∨ d = j) := by
  have hnf := hp.nf
  have hleaves := hp.leaves
  have hcount := h.count
  show ∃! i, (w2.leaves ≤ i ∧ i < w2.nf + 1) ∧ _
  rw [hnf, hleaves]
  rcases (hp.used j).1 hj with hj | hj
  · obtain ⟨i, ⟨hi, c, d, k, hi1, hi2⟩, huniq⟩ := h.parent j hj
    refine ⟨i, ⟨⟨hi.1, by omega⟩, c, d, k, by rw [getElem?_old h _ hi.2]; exact hi1, hi2⟩, ?_⟩
    rintro i' ⟨⟨h1, h2⟩, c', d', k', h3, h4⟩
    by_cases hii : i' = w.nf
    · exfalso
      subst hii
      rw [getElem?_new h] at h3
      obtain ⟨rfl, rfl⟩ := joinNodes_inj (Option.some.inj h3)
      rcases h4 with rfl | rfl
      · exact not_used_of_avail h hp.availA hj
      · exact not_used_of_avail h hp.availB hj
    · exact huniq i' ⟨⟨h1, by omega⟩, c', d', k', by rw [← getElem?_old h _ (by omega)]; exact h3, h4⟩
  · refine ⟨w.nf, ⟨⟨by omega, by omega⟩, a, b, g, getElem?_new h _, ?_⟩, ?_⟩
    · rcases hj with rfl | rfl
      · exact Or.inl rfl
      · exact Or.inr rfl
    · rintro i' ⟨⟨h1, h2⟩, c, d, k, h3, h4⟩
      by_contra hii
      rw [getElem?_old h _ (by omega)] at h3
      obtain ⟨c', d', k', h5, _, _, _, hu1, hu2, _, _⟩ := h.branch i' h1 (by omega)
      rw [h5] at h3
      obtain ⟨rfl, rfl⟩ := joinNodes_inj (Option.some.inj h3)
      have hju : w.used j := by rcases h4 with rfl | rfl; exacts [hu1, hu2]
      rcases hj with rfl | rfl
      · exact not_used_of_avail h hp.availA hju
      · exact not_used_of_avail h hp.availB hju

theorem append_order (h : Merging side ls nodes w) (hp : TwoPicks nodes w a b w2)
    (hg : g.toNat = fr nodes a + fr nodes b) (j j' : Nat) (hj : w2.appended.used j) (hj' : w2.appended.avail j') :
    fr (nodes ++ [joinNodes side a b g]) j ≤ fr (nodes ++ [joinNodes side a b g]) j' := by
  have hjle : fr (nodes ++ [joinNodes side a b g]) j ≤ fr nodes b := by
    rcases (hp.used j).1 hj with h1 | rfl | rfl
    · rw [fr_old h _ (used_lt h h1)]; exact h.order _ _ h1 hp.availB
    · rw [fr_old h _ (avail_lt h hp.availA)]; exact hp.le
    · rw [fr_old h _ (avail_lt h hp.availB)]
  refine Nat.le_trans hjle ?_
  have hcases : w2.avail j' ∨ j' = w.nf := by
    have hnf := hp.nf
    have := hp.cursors
    simp only [BuildWork.avail] at hj' ⊢
    omega
  rcases hcases with h1 | rfl
  · obtain ⟨h2, h3, _⟩ := (hp.avail j').1 h1
    rw [fr_old h _ (avail_lt h h2)]
    exact hp.least j' h2 h3
  · rw [fr_new h hg]; omega

theorem append_total (h : Merging side ls nodes w) (hp : TwoPicks nodes w a b w2)
    (hg : g.toNat = fr nodes a + fr nodes b) :
    (∑ j ∈ Finset.Ico w2.lc w2.leaves, fr (nodes ++ [joinNodes side a b g]) j) +
      (∑ j ∈ Finset.Ico w2.bc (w2.nf + 1), fr (nodes ++ [joinNodes side a b g]) j) =
    ∑ j ∈ Finset.range ls.length, fr ls j := by
  have hcount := h.count
  have hs : ∀ (lo hi : Nat), hi ≤ w.nf → ∑ j ∈ Finset.Ico lo hi, fr (nodes ++ [joinNodes side a b g]) j =
      ∑ j ∈ Finset.Ico lo hi, fr nodes j := by
    intro lo hi hh
    refine Finset.sum_congr rfl fun j hj => fr_old h _ ?_
    have := (Finset.mem_Ico.1 hj).2
    omega
  rw [← h.total, hp.total, hp.nf, hp.leaves, Finset.sum_Ico_succ_top (by have := hp.cursors; omega),
    hs _ _ (by omega), hs _ _ (Nat.le_refl _), fr_new h hg]
  omega

/-- Appending the branch of the two entries picked keeps all of it. -/
theorem Merging.append (h : Merging side ls nodes w) (hp : TwoPicks nodes w a b w2)
    (hg : g.toNat = fr nodes a + fr nodes b) :
    Merging side ls (nodes ++ [joinNodes side a b g]) w2.appended where
  leaves := hp.leaves.trans h.leaves
  starts := fun i hi => by
    rw [← h.starts i hi]
    exact getElem?_old h _ (by have := h.leaves; have := h.count; omega)
  nf := by
    have := h.nf
    have := hp.nf
    simp only [List.length_append, List.length_singleton]
    omega
  count := by
    have := h.count
    have := hp.nf
    have := hp.leaves
    have := hp.k
    simp only
    omega
  inOrder := append_inOrder h hp hg
  last := fun _ => by
    have := hp.cursors
    have := hp.nf
    simp only
    omega
  picked := by
    have := hp.cursors
    have := h.picked
    have := hp.leaves
    have := hp.k
    simp only
    omega
  branch := append_branch h hp hg
  parent := append_parent h hp
  order := append_order h hp hg
  total := append_total h hp hg

end Append

/-- The whole of a merge step with at least two entries left: it appends the branch of two entries of least
frequency, or raises where their sum does not fit; `Pick` never fails (40_build R125, R126, R131). -/
theorem mergeStep_cases {side : Bool} {ls nodes : List Node} {w : BuildWork} (h : Merging side ls nodes w)
    (hk : w.k + 1 < w.leaves) :
    (∃ nodes' w', mergeStep side nodes w = .ok (nodes', w') ∧ Merging side ls nodes' w' ∧ w'.k = w.k + 1) ∨
    (mergeStep side nodes w = .error (.frequencySum, w.nf) ∧
      2 ^ 64 ≤ ∑ j ∈ Finset.range ls.length, fr ls j) := by
  have hcount := h.count
  have hpicked := h.picked
  obtain ⟨a, b, w1, w2, hp1, hp2, hp⟩ := twoPicks h.inOrder (by omega)
  simp only [mergeStep, hp1, hp2]
  by_cases hov : 2 ^ 64 ≤ (freqAt nodes a).toNat + (freqAt nodes b).toNat
  · right
    rw [if_pos hov, hp.nf]
    exact ⟨rfl, Nat.le_trans hov (h.two_le_total hp.availA hp.availB hp.ne)⟩
  · left
    rw [if_neg hov]
    refine ⟨_, _, rfl, h.append hp ?_, congrArg (· + 1) hp.k⟩
    rw [BitVec.toNat_ofNat, Nat.mod_eq_of_lt (Nat.lt_of_not_le hov)]
    rfl

/-- The merge stops at its step for index `nf`: the steps before it append up to there, and that one finds a sum
that does not fit (40_build R126). -/
def MergeOverflowsAt (side : Bool) (nodes : List Node) (w : BuildWork) (nf : Nat) : Prop :=
  (∃ nodes', mergeLoop side (nf - w.nf) nodes w = .ok nodes' ∧ nodes'.length = nf) ∧
    mergeLoop side (nf - w.nf + 1) nodes w = .error (.frequencySum, nf)

/-- The whole of the merge: it runs all its steps, or raises the overflow fault at its first step whose sum does
not fit, and never the other fault (40_build R125, R126, R131). -/
theorem mergeLoop_cases {side : Bool} {ls : List Node} (steps : Nat) {nodes : List Node} {w : BuildWork}
    (h : Merging side ls nodes w) (hk : w.k + steps < w.leaves) :
    (∃ nodes' w', mergeLoop side steps nodes w = .ok nodes' ∧ Merging side ls nodes' w' ∧ w'.k = w.k + steps) ∨
    (∃ nf, w.nf ≤ nf ∧ nf < w.nf + steps ∧ mergeLoop side steps nodes w = .error (.frequencySum, nf) ∧
      MergeOverflowsAt side nodes w nf ∧ 2 ^ 64 ≤ ∑ j ∈ Finset.range ls.length, fr ls j) := by
  induction steps generalizing nodes w with
  | zero => exact Or.inl ⟨nodes, w, rfl, h, rfl⟩
  | succ n ih =>
    rcases mergeStep_cases h (by omega) with ⟨nodes', w', h1, h2, h3⟩ | ⟨h1, h2⟩
    · have hl : ∀ m, mergeLoop side (m + 1) nodes w = mergeLoop side m nodes' w' := by
        intro m
        simp only [mergeLoop, h1]
      have e1 := h2.leaves.trans h.leaves.symm
      have e2 : w'.nf = w.nf + 1 := by have := h.count; have := h2.count; omega
      rcases ih h2 (by omega) with ⟨nodes'', w'', g1, g2, g3⟩ | ⟨nf, g1, g2, g3, g4, g5⟩
      · exact Or.inl ⟨nodes'', w'', (hl n).trans g1, g2, by omega⟩
      · refine Or.inr ⟨nf, by omega, by omega, (hl n).trans g3, ?_, g5⟩
        have hm : nf - w.nf = nf - w'.nf + 1 := by omega
        simpa only [MergeOverflowsAt, hm, hl] using g4
    · have hm : ∀ m, mergeLoop side (m + 1) nodes w = .error (.frequencySum, w.nf) := by
        intro m
        simp only [mergeLoop, h1]
      exact Or.inr ⟨w.nf, Nat.le_refl _, by omega, hm n,
        ⟨⟨nodes, by rw [Nat.sub_self]; rfl, h.nf⟩, hm _⟩, h2⟩

/-- Where a merge of `L` leaves stands when it has made its `L - 1` branches: one entry is left, the last
(40_build R127, R128 (d)). -/
theorem Merging.finished {side : Bool} {ls nodes : List Node} {w : BuildWork} (h : Merging side ls nodes w)
    (h1 : 1 ≤ ls.length) (hk : w.k = ls.length - 1) :
    w.leaves = ls.length ∧ nodes.length = 2 * ls.length - 1 ∧ w.nf = 2 * ls.length - 1 ∧
      (∀ j, w.used j ↔ j < 2 * ls.length - 2) ∧
      fr nodes (2 * ls.length - 2) = ∑ j ∈ Finset.range ls.length, fr ls j := by
  have hl := h.leaves
  have hc := h.count
  have hn := h.nf
  have hp := h.picked
  have hlc := h.inOrder.lc
  have hbc := h.inOrder.bc
  have hbcnf := h.inOrder.bcnf
  have hlast : 0 < w.k → w.bc < w.nf := h.last
  refine ⟨hl, by omega, by omega, ?_, ?_⟩
  · intro j
    simp only [BuildWork.used]
    by_cases hk0 : 0 < w.k
    · have := hlast hk0
      omega
    · omega
  · rw [← h.total]
    by_cases hk0 : 0 < w.k
    · have := hlast hk0
      rw [show w.lc = w.leaves by omega, show w.bc = 2 * ls.length - 2 by omega,
        show w.nf = 2 * ls.length - 2 + 1 by omega]
      simp
    · rw [show w.lc = 0 by omega, show w.leaves = 1 by omega, show w.bc = w.nf by omega,
        show 2 * ls.length - 2 = 0 by omega]
      simp

/-! ### BUILD's tree -/

theorem length_leafNodes (table : List Word) :
    (leafNodes table).length = (table.filter (fun f => f != 0#64)).length := by
  rw [leafNodes, List.length_map, (sortLeaves_perm _).length_eq, length_nonzeroLeaves]

theorem fr_leafNodes (table : List Word) {i : Nat} (h : i < (leafNodes table).length) :
    ∃ x, (sortLeaves (nonzeroLeaves table))[i]? = some x ∧ (leafNodes table)[i]? = some (.leaf x.1 x.2) ∧
      fr (leafNodes table) i = x.2.toNat := by
  have h' : i < (sortLeaves (nonzeroLeaves table)).length := by simpa [leafNodes] using h
  refine ⟨_, List.getElem?_eq_getElem h', ?_, ?_⟩
  · simp [leafNodes, List.getElem?_eq_getElem h']
  · simp [fr, freqAt, leafNodes, List.getElem?_eq_getElem h']

/-- The leaves' frequencies sum to the whole table (40_build R126). -/
theorem sum_leafNodes (table : List Word) :
    ∑ j ∈ Finset.range (leafNodes table).length, fr (leafNodes table) j = (table.map BitVec.toNat).sum := by
  rw [← sum_nonzeroLeaves, ← ((sortLeaves_perm (nonzeroLeaves table)).map (fun x => x.2.toNat)).sum_eq]
  have : ∀ l : List (Byte × Word), ∑ j ∈ Finset.range (l.map (fun x => Node.leaf x.1 x.2)).length,
      fr (l.map (fun x => Node.leaf x.1 x.2)) j = (l.map (fun x => x.2.toNat)).sum := by
    intro l
    induction l with
    | nil => simp
    | cons x rest ih =>
      simp only [List.map_cons, List.length_cons, Finset.sum_range_succ', List.sum_cons]
      rw [← ih, Nat.add_comm]
      congr 1
  exact this _

/-- The sorted leaves are in ascending order of frequency (40_build R123, R130 (I1)). -/
theorem leafNodes_sorted {table : List Word} (hlen : table.length ≤ 256) (i j : Nat) (hij : i ≤ j)
    (hj : j < (leafNodes table).length) : fr (leafNodes table) i ≤ fr (leafNodes table) j := by
  rcases Nat.eq_or_lt_of_le hij with rfl | hij
  · exact Nat.le_refl _
  obtain ⟨x, hx, _, fx⟩ := fr_leafNodes table (Nat.lt_trans hij hj)
  obtain ⟨y, hy, _, fy⟩ := fr_leafNodes table hj
  obtain ⟨h1, h2⟩ := List.getElem?_eq_some_iff.1 hx
  obtain ⟨h3, h4⟩ := List.getElem?_eq_some_iff.1 hy
  have := List.pairwise_iff_getElem.1 (sortLeaves_sorted (nodup_nonzeroLeaves hlen)) i j h1 h3 hij
  rw [h2, h4] at this
  rw [fx, fy]
  simp only [leafBefore, Bool.or_eq_true, decide_eq_true_eq, Bool.and_eq_true, beq_iff_eq] at this
  rcases this with h | ⟨h, _⟩
  · omega
  · rw [h]

/-- The whole of BUILD's computation on a table of at most 256 entries: the empty array for no leaves, a
finished merge, or the overflow fault, the last exactly when at least two leaves sum to 2^64 or more
(40_build R120, R126, R127). -/
theorem buildTree_cases (side : Bool) {table : List Word} (hlen : table.length ≤ 256) :
    (leafNodes table = [] ∧ buildTree side table = .ok []) ∨
    (1 ≤ (leafNodes table).length ∧ (table.map BitVec.toNat).sum < 2 ^ 64 ∧
      ∃ nodes w, buildTree side table = .ok nodes ∧ Merging side (leafNodes table) nodes w ∧
        w.k = (leafNodes table).length - 1) ∨
    (2 ≤ (leafNodes table).length ∧ 2 ^ 64 ≤ (table.map BitVec.toNat).sum ∧
      ∃ nf, (leafNodes table).length ≤ nf ∧ nf < 2 * (leafNodes table).length - 1 ∧
        buildTree side table = .error (.frequencySum, nf) ∧
        MergeOverflowsAt side (leafNodes table) (BuildWork.start (leafNodes table).length) nf) := by
  cases hl : (leafNodes table).length with
  | zero =>
    have hnil := List.length_eq_zero_iff.1 hl
    exact Or.inl ⟨hnil, by simp [buildTree, hnil, mergeLoop]⟩
  | succ n =>
    right
    have hstart := merging_start side (leafNodes_sorted hlen)
    rcases mergeLoop_cases n hstart (by simp [BuildWork.start, hl]) with
      ⟨nodes, w, h1, h2, h3⟩ | ⟨nf, h1, h2, h3, h5, h4⟩
    · left
      have hk : w.k = (leafNodes table).length - 1 := by simpa [BuildWork.start, hl] using h3
      obtain ⟨_, _, _, _, hroot⟩ := h2.finished (by omega) hk
      refine ⟨by omega, ?_, nodes, w, ?_, h2, by omega⟩
      · rw [← sum_leafNodes, ← hroot]
        exact BitVec.isLt _
      · simpa [buildTree, hl] using h1
    · right
      simp only [BuildWork.start] at h1 h2
      rw [sum_leafNodes] at h4
      refine ⟨by omega, h4, nf, by omega, by omega, by simpa [buildTree, hl] using h3, ?_⟩
      rwa [hl] at h5

@[simp] theorem length_freqTable (s : State) : s.freqTable.length = 256 := by simp [State.freqTable]

theorem leafCount_eq (s : State) : (leafNodes s.freqTable).length = s.leafCount := length_leafNodes _

theorem leafCount_le (s : State) : s.leafCount ≤ 256 := by
  have := List.length_filter_le (fun f => f != 0#64) s.freqTable
  rw [length_freqTable] at this
  exact this

end Sys2Proof.Machine
end

