-- ==== Sys2Proof/Tests/Slice0.lean ====
section
/-! SUPPORT. Tests: well-formedness, decoding of words written out from the spec, spec vectors V1 to V25 on
small states, and one witness for each statement that has hypotheses. Expected values are the spec's. -/

namespace Sys2Proof.Tests

open Sys2Proof.Machine

/-! ### Helpers -/

/-- FREQ with the given entries and 0 everywhere else, all written. -/
def freqOf (l : List (Nat × Nat)) : Memory 64 :=
  { draw := 0, cells := (List.range 256).map (fun v => (v, BitVec.ofNat 64 ((l.lookup v).getD 0))) }

/-- NODE with these words 0, the frequencies not written. -/
def treeOf (words : List Nat) : Memory 64 :=
  { draw := 1, cells := words.zipIdx.map (fun x => (2 * x.2, BitVec.ofNat 64 x.1)) }

/-- A buffer beginning with these bytes. -/
def bytesOf (d : Nat) (l : List Nat) : Memory 8 :=
  { draw := d, cells := l.zipIdx.map (fun x => (x.2, BitVec.ofNat 8 x.1)) }

def withFreq (l : List (Nat × Nat)) : State := { State.reset with freq := freqOf l }

/-- The tree of V1 (Leaf B, Leaf A, Branch(0, 1)). -/
def abTree : State :=
  { State.reset with nodeCount := 3#10, node := treeOf [0x4200, 0x4100, 0x0000000100000001] }

def withPay (s : State) (l : List Nat) : State :=
  { s with pay := bytesOf 2 l, payLen := BitVec.ofNat 64 l.length }

def withBits (s : State) (l : List Nat) (bits symbols : Nat) : State :=
  { s with bitbuf := bytesOf 3 l, bitCount := BitVec.ofNat 64 bits, symCount := BitVec.ofNat 64 symbols }

def pending (s : State) (l : List HostEvent) : State := { s with host := l }

def readEvent (win : Window) (off : Nat) : HostEvent := { early := false, act := .read (.at win off) 8 }

def writeEvent (win : Window) (off : Nat) (v : Word) : HostEvent :=
  { early := false, act := .write (.at win off) 8 v }

def paramsWith (payMax outMax payBase outBase : Nat) : Params :=
  { Params.smallest with payMax := payMax, outMax := outMax, payBase := payBase, outBase := outBase }

/-- The next state of an outcome that is one. -/
def nextOf : Host.Outcome State Fault Refusal → Option State
  | .next t => some t
  | _ => none

/-! ### Well-formedness -/

/-- 30_encoding R96: a word with a reserved bit set is no command (bit 8, bit 63). -/
theorem test_wellFormed_refuses_reserved_bits :
    CommandWord.wellFormed 0x0000000000000101#64 = false ∧ CommandWord.wellFormed 0x8000000000000002#64 = false := by
  decide

/-- 30_encoding R96: OPCODE 0x00 and 0x04 to 0xFF are reserved. -/
theorem test_wellFormed_refuses_reserved_opcodes :
    CommandWord.wellFormed 0x00#64 = false ∧ CommandWord.wellFormed 0x04#64 = false ∧
      CommandWord.wellFormed 0xFF#64 = false ∧ CommandWord.wellFormed 0x03#64 = true := by decide

/-- 20_memory R67: another width or another alignment is no access the block takes. -/
theorem test_access_refuses_width_and_alignment :
    Access.wellFormed 0x08 4 = false ∧ Access.wellFormed 0x08 1 = false ∧ Access.wellFormed 0x0C 8 = false ∧
      Access.wellFormed 0x08 8 = true := by decide

/-- 00_scope R8: a capacity below 8, one that is no multiple of 8, one that is too large, a base that is no
multiple of 8 and two windows that overlap are refused. -/
theorem test_params_refuse_each_violation :
    ¬ (paramsWith 0 8 0x4000 0x4010).valid ∧ ¬ (paramsWith 8 12 0x4000 0x4010).valid ∧
      ¬ (paramsWith 8 (2 ^ 60) 0x4000 0x4010).valid ∧ ¬ (paramsWith 8 8 0x4000 0x4014).valid ∧
      ¬ (paramsWith 8 8 0x3FF8 0x4010).valid ∧ (paramsWith 8 8 0x4000 0x4010).valid :=
  ⟨by decide, by decide, by decide, by decide, by decide, by decide⟩

/-! ### Decoding (30_encoding R91, R98: OPCODE in bits 7:0, bits 63:8 zero) -/

theorem test_decode_build_word :
    decode 0b0000000000000000000000000000000000000000000000000000000000000001#64 = .ok .build ∧
      encode .build = 0x0000000000000001#64 ∧ decodeTableWord 64 1 = some .build := by decide

theorem test_decode_encode_word :
    decode 0b0000000000000000000000000000000000000000000000000000000000000010#64 = .ok .encode ∧
      encode .encode = 0x0000000000000002#64 ∧ decodeTableWord 64 2 = some .encode := by decide

theorem test_decode_decode_word :
    decode 0b0000000000000000000000000000000000000000000000000000000000000011#64 = .ok .decode ∧
      encode .decode = 0x0000000000000003#64 ∧ decodeTableWord 64 3 = some .decode := by decide

theorem test_decode_rejects :
    decode 0#64 = .error .reservedOpcode ∧ decode 0x0000000000000104#64 = .error .reservedBits ∧
      decodeTableWord 64 0 = none ∧ decodeTableWord 64 0x0000000100000001 = none := by decide

/-- The next step after placing a command runs it. -/
theorem test_step_runs_the_placed_command :
    step (State.reset.withFetchWord 64 1) =
        exec .build ({ State.reset.withFetchWord 64 1 with host := [] }.accept .build) ∧
      step (State.reset.withFetchWord 64 2) =
        exec .encode ({ State.reset.withFetchWord 64 2 with host := [] }.accept .encode) ∧
      step (State.reset.withFetchWord 64 3) =
        exec .decode ({ State.reset.withFetchWord 64 3 with host := [] }.accept .decode) := ⟨rfl, rfl, rfl⟩

/-! ### The commands -/

/-- Vector V1. -/
theorem test_build_v1 :
    (nextOf (exec .build (withFreq [(0x41, 4), (0x42, 2)]))).map
      (fun t => (t.nodeCount, t.status, (List.range 6).map t.node.read)) =
    some (3#10, 0x0000#64,
      [0x4200#64, 2#64, 0x4100#64, 4#64, 0x0000000100000001#64, 6#64]) := by decide +kernel

/-- Vector V4: ties among leaves and between a leaf and a branch. -/
theorem test_build_v4 :
    (nextOf (exec .build (withFreq [(0x41, 5), (0x42, 2), (0x43, 1), (0x44, 1), (0x52, 2)]))).map
      (fun t => (t.nodeCount, (List.range 5).map (fun i => t.node.read (2 * i)),
        (List.range 4).map (fun i => t.node.read (2 * i + 10)))) =
    some (9#10, [0x4300#64, 0x4400#64, 0x4200#64, 0x5200#64, 0x4100#64],
      [0x0000000100000001#64, 0x0000000300020001#64, 0x0000000600050001#64, 0x0000000700040001#64]) := by
  decide +kernel

/-- Vector V1, the encode. -/
theorem test_encode_v1 :
    (fun t : State => (t.bitCount, t.status, t.bitbuf.read 0))
      (encodeEffect Params.smallest (withPay abTree [0x41, 0x41, 0x41, 0x41, 0x42, 0x42])) =
    (6#64, 0x0000#64, 0xF0#8) := by decide +kernel

/-- Vector V12: the third byte has no path. -/
theorem test_encode_v12 :
    (fun t : State => (t.bitCount, t.status, t.errInfo))
      (encodeEffect Params.smallest (withPay abTree [0x41, 0x41, 0x43])) =
    (0#64, 0x0402#64, 0x4000000000000002#64) := by decide +kernel

/-- Vector V1, the decode. -/
theorem test_decode_v1 :
    (fun t : State => (t.outLen, t.status, (List.range 6).map t.out.read))
      (decodeEffect Params.smallest (withBits abTree [0xF0] 6 6)) =
    (6#64, 0x0000#64, [0x41#8, 0x41#8, 0x41#8, 0x41#8, 0x42#8, 0x42#8]) := by decide +kernel

/-- Vector V19: five bits for six symbols. -/
theorem test_decode_v19 :
    (fun t : State => (t.outLen, t.status, t.errInfo))
      (decodeEffect Params.smallest (withBits abTree [0xF0] 5 6)) =
    (0#64, 0x0502#64, 0x9000000000000005#64) := by decide +kernel

/-! ### The host's accesses -/

/-- Vector V22: an illegal word. -/
theorem test_illegal_word_v22 :
    (nextOf (step (pending State.reset [writeEvent .reg 0 0x8000000000000002#64]))).map
      (fun t => (t.status, t.errInfo)) = some (0x0602#64, 0xA000000000000002#64) := by decide

/-- 10_state R29: only bit 1 of a written STATUS acknowledges. -/
theorem test_acknowledge :
    (nextOf (step (pending { State.reset with fault := true } [writeEvent .reg 8 0xFFFFFFFFFFFFFFFD#64]))).map
        State.fault = some true ∧
      (nextOf (step (pending { State.reset with fault := true } [writeEvent .reg 8 2#64]))).map
        State.fault = some false := by decide

/-- 10_state R31: a read of NODE_COUNT returns bits 9:0 of the word written. -/
theorem test_nodeCount_keeps_ten_bits :
    (nextOf (step (pending State.reset [writeEvent .reg 0x18 0xFFFFFFFFFFFFFC03#64]))).map
      State.nodeCount = some 3#10 := by decide

/-- 20_memory R61: byte 8n + m of a window is in bits 8m + 7 : 8m of its word. -/
theorem test_lanes :
    readLanes (bytesOf 2 [0x41, 0x41, 0x41, 0x41, 0x42, 0x42, 0, 0]) 0 = 0x0000424241414141#64 ∧
      (writeLanes (bytesOf 2 []) 1 0x0807060504030201#64).cells.map (fun x => (x.1, x.2.toNat)) =
        [(8, 1), (9, 2), (10, 3), (11, 4), (12, 5), (13, 6), (14, 7), (15, 8)] := by decide +kernel

/-! ### Witnesses: for each statement, states and operands that meet its hypotheses -/

theorem capacities_hold_eight :
    8 ≤ Config.platform.payMax ∧ 8 ≤ Config.platform.bitbufMax ∧ 8 ≤ Config.platform.outMax ∧
      Config.platform.payMax < 2 ^ 60 ∧ Config.platform.bitbufMax < 2 ^ 60 ∧ Config.platform.outMax < 2 ^ 60 := by
  obtain ⟨⟨⟨_, a, b⟩, ⟨_, c, d⟩, ⟨_, e, f⟩⟩, _⟩ := platform_valid
  exact ⟨a, c, e, b, d, f⟩

/-- A running ENCODE with one more act of the outside to come. -/
def running (e : HostEvent) : State :=
  { State.reset with seq := .busy .encode, work := .encode EncodeWork.start, host := [e] }

theorem witness_ResetIsIdleWithRegistersZero : State.reset.cc = .known [] := rfl

theorem witness_PlatformResetAbandonsEverything :
    (∃ (s : State) (e : HostEvent), s.host = e :: [] ∧ e.act = .reset ∧ s.seq = .idle) ∧
      ∃ (s : State) (e : HostEvent), s.host = e :: [] ∧ e.act = .reset ∧ s.seq ≠ .idle ∧ e.early = true :=
  ⟨⟨pending State.reset [⟨false, .reset⟩], _, rfl, rfl, rfl⟩,
    ⟨running ⟨true, .reset⟩, _, rfl, rfl, by decide, rfl⟩⟩

theorem witness_NodeRecordRoundTrip :
    (511 : Nat) < 512 ∧ recordOk 2 0x0000000100000001#64 = true ∧ recordOk 0 0x4200#64 = true ∧
      recordOk 511 0x000001FE01FE0001#64 = true := by decide

theorem witness_StatusAndErrInfoFields : 0 < 2 ^ 60 ∧ 2 ^ 60 - 1 < 2 ^ 60 := by decide

theorem witness_StepRunsTheDecodedCommand (i : Instr) :
    (State.reset.withCommand (encode i)).seq = .idle ∧
      (State.reset.withCommand (encode i)).host = { early := false, act := .write (.at .reg 0) 8 (encode i) } :: [] ∧
      busTarget Config.platform (.at .reg 0) 8 = .loc .cmd ∧ Sys2Proof.decode (encode i) = .ok i :=
  ⟨rfl, rfl, rfl, by cases i <;> decide⟩

/-- The other way the step can go: the outside's next act lands while the command runs. -/
theorem witness_StepRunsTheDecodedCommand_early :
    (pending State.reset [writeEvent .reg 0 1#64, { early := true, act := .read (.at .reg 8) 8 }]).host =
        { early := false, act := .write (.at .reg 0) 8 1#64 } :: [⟨true, .read (.at .reg 8) 8⟩] ∧
      nextIsEarly [⟨true, .read (.at .reg 8) 8⟩] = true := ⟨rfl, rfl⟩

theorem witness_RunningCommandEndsInOneStep :
    (running (readEvent .reg 8)).seq = .busy .encode ∧ nextIsEarly (running (readEvent .reg 8)).host = false :=
  ⟨rfl, rfl⟩

theorem witness_IllegalWordIsRejected :
    (pending State.reset [writeEvent .reg 0 4#64]).seq = .idle ∧ (pending State.reset [writeEvent .reg 0 4#64]).workOk ∧
      busTarget Config.platform (.at .reg 0) 8 = .loc .cmd ∧
      (4#64 ≠ 1#64 ∧ 4#64 ≠ 2#64 ∧ 4#64 ≠ 3#64) ∧
      (0xFFFFFFFFFFFFFFFF#64 ≠ 1#64 ∧ 0xFFFFFFFFFFFFFFFF#64 ≠ 2#64 ∧ 0xFFFFFFFFFFFFFFFF#64 ≠ 3#64) :=
  ⟨rfl, rfl, rfl, by decide, by decide⟩

theorem witness_IdleIsQuiescent : State.reset.seq = .idle ∧ State.reset.host = [] := ⟨rfl, rfl⟩

theorem witness_OnlyAnUntakenAccessStops :
    (∀ e ∈ State.reset.host.head?, e.act.taken Config.platform) ∧
      ∀ e ∈ (pending State.reset [readEvent .reg 0x3FF8]).host.head?, e.act.taken Config.platform := by
  refine ⟨by simp [State.reset], ?_⟩
  intro e he
  obtain rfl : readEvent .reg 0x3FF8 = e := by simpa [pending] using he
  exact ⟨.reserved, rfl⟩

theorem witness_AccessesWhileBusy :
    ((running ⟨true, .write (.at .reg 0) 8 1#64⟩).seq = .busy .encode ∧
      busTarget Config.platform (.at .reg 0) 8 = .loc .cmd) ∧
    ((running ⟨true, .read (.at .reg 8) 8⟩).host = ⟨true, .read (.at .reg 8) 8⟩ :: [] ∧
      busTarget Config.platform (.at .reg 8) 8 = .loc .status) ∧
    ((running ⟨true, .read (.at .reg 0x28) 8⟩).host = ⟨true, .read (.at .reg 0x28) 8⟩ :: [] ∧
      busTarget Config.platform (.at .reg 0x28) 8 = .loc .bitCount) := ⟨⟨rfl, rfl⟩, ⟨rfl, rfl⟩, ⟨rfl, rfl⟩⟩

/-- An access to every range of the register window, at its lowest and its highest offset. -/
theorem witness_RegisterMapReads :
    ((pending State.reset [readEvent .reg 0x0008]).seq = .idle ∧
      (pending State.reset [readEvent .reg 0x0008]).host = { early := false, act := .read (.at .reg 0x0008) 8 } :: []) ∧
    ∀ off ∈ [0x0000, 0x0008, 0x0010, 0x0018, 0x0020, 0x0028, 0x0030, 0x0038, 0x0040, 0x07F8, 0x0800, 0x0FF8, 0x1000,
        0x1FF8, 0x2000, 0x2008, 0x3FE0, 0x3FE8, 0x3FF0, 0x3FF8],
      off ≤ 0x0038 ∨ (∃ k ≤ 1023, off = 8 * k ∧ 0x0040 ≤ off ∧ off ≤ 0x07F8) ∨
        (∃ b < 256, off = 0x0800 + 8 * b) ∨ (∃ k ≤ 1023, off = 8 * k ∧ 0x1000 ≤ off ∧ off ≤ 0x1FF8) ∨
        (∃ i < 511, off = 0x2000 + 16 * i) ∨ (∃ i < 511, off = 0x2008 + 16 * i) ∨ off = 0x3FF0 ∨ off = 0x3FF8 :=
  ⟨⟨rfl, rfl⟩, by decide +kernel⟩

/-- A write at the lowest and at the highest offset of every clause; the clauses exclude each other by their
offsets. -/
theorem witness_RegisterMapWrites :
    (∀ off : Nat, (pending State.reset [writeEvent .reg off 7#64]).seq = .idle ∧
      (pending State.reset [writeEvent .reg off 7#64]).host =
        { early := false, act := .write (.at .reg off) 8 7#64 } :: []) ∧
    (∀ off ∈ [0x0008, 0x0010, 0x0018, 0x0020, 0x0028, 0x0030, 0x0038, 0x0040, 0x07F8, 0x0800, 0x0FF8, 0x1000, 0x1FF8,
      0x2000, 0x2008, 0x3FE0, 0x3FE8, 0x3FF0, 0x3FF8], off % 8 = 0 ∧ 0x0008 ≤ off ∧ off ≤ 0x3FF8) ∧
    (0x0FF8 = 0x0800 + 8 * 255 ∧ 0x3FE0 = 0x2000 + 16 * 510 ∧ 0x3FE8 = 0x2008 + 16 * 510) :=
  ⟨fun _ => ⟨rfl, rfl⟩, by decide +kernel, by decide⟩

/-- The lowest word of each buffer and the highest of PAY. -/
theorem witness_BufferWordsAreLittleEndianLanes :
    (8 * 0 + 8 ≤ Config.platform.payMax ∧ 8 * 0 + 8 ≤ Config.platform.bitbufMax ∧
      8 * 0 + 8 ≤ Config.platform.outMax ∧
      8 * (Config.platform.payMax / 8 - 1) + 8 ≤ Config.platform.payMax) ∧
    (pending State.reset [writeEvent .bitbuf (8 * 0) 5#64]).host =
      { early := false, act := .write (.at .bitbuf (8 * 0)) 8 5#64 } :: [] ∧
    (pending State.reset [readEvent .out (8 * 0)]).host = { early := false, act := .read (.at .out (8 * 0)) 8 } :: [] := by
  obtain ⟨a, b, c, -⟩ := capacities_hold_eight
  refine ⟨⟨a, b, c, by omega⟩, rfl, rfl⟩

theorem witness_PlatformAddressesNameTheirWindow :
    Params.smallest.valid ∧ 0 < Params.smallest.windowSize .out ∧ 7 < Params.smallest.windowSize .out ∧
      0x3FFF < Params.smallest.windowSize .reg := by decide

/-- An address past the end of all four windows. -/
def beyond : Nat :=
  Config.platform.blockBase + 0x4000 + Config.platform.payBase + Config.platform.payMax +
    Config.platform.bitbufBase + Config.platform.bitbufMax + Config.platform.outBase + Config.platform.outMax

theorem beyond_outside (p : Params) (n : Nat) (h : ∀ win, p.windowBase win + p.windowSize win ≤ n) :
    locate p (.abs n) = none := by
  have h' : ∀ win, inWindow p n win = false := by
    intro win
    have := h win
    simp only [inWindow, Bool.and_eq_false_iff, decide_eq_false_iff_not]
    omega
  simp [locate, locateAbs, h']
theorem windows_end_by_beyond (win : Window) : Config.platform.windowBase win + Config.platform.windowSize win ≤ beyond := by
  unfold beyond
  cases win
  · change Config.platform.blockBase + 16384 ≤ _
    omega
  · change Config.platform.payBase + Config.platform.payMax ≤ _
    omega
  · change Config.platform.bitbufBase + Config.platform.bitbufMax ≤ _
    omega
  · change Config.platform.outBase + Config.platform.outMax ≤ _
    omega

theorem witness_UntakenAccessesAreRefused :
    locate Config.platform (.abs beyond) = none ∧ locate Config.platform (.at .reg 4) = some (.reg, 4) ∧
      (4 : Nat) % 8 ≠ 0 ∧ locate Config.platform (.at .reg 0) = some (.reg, 0) ∧ (4 : Nat) ≠ 8 ∧
      (pending State.reset [⟨false, .read (.abs beyond) 8⟩]).seq = .idle ∧
      (running ⟨true, .write (.at .reg 4) 8 0#64⟩).host = ⟨true, .write (.at .reg 4) 8 0#64⟩ :: [] :=
  ⟨beyond_outside _ _ windows_end_by_beyond, rfl, by decide, rfl, by decide, rfl, rfl⟩

theorem witness_OnlyAcknowledgeOrResetClearsFault :
    (∃ s t : State, s.fault = true ∧ step s = .next t ∧ t.fault = false ∧ s.seq = .idle) ∧
      ∃ s t : State, s.fault = true ∧ step s = .next t ∧ t.fault = false ∧ s.seq = .busy .encode :=
  ⟨⟨pending { State.reset with fault := true } [writeEvent .reg 8 2#64], _, rfl, rfl, rfl, rfl⟩,
    ⟨{ running ⟨true, .reset⟩ with fault := true }, _, rfl, rfl, rfl, rfl⟩⟩

/-! Frequency tables. -/

/-- The result is no fault with one leaf, and is one where two frequencies sum to 2^64. -/
theorem witness_BuildFrame :
    (buildEffect true (withFreq [(0xFF, 1)])).result.isFault = false ∧
      (buildEffect true (withFreq [(0, 2 ^ 63), (1, 2 ^ 63)])).result.isFault = true := by decide +kernel

theorem witness_BuildOfNothing : ∀ v < 256, (withFreq []).freq.read v = 0#64 := by decide +kernel

/-- The least frequency of the highest byte, and the greatest frequency of the lowest. -/
theorem witness_BuildOfOneLeaf :
    (1#64 ≠ 0#64 ∧ (withFreq [(255, 1)]).freq.read 255 = 1#64 ∧
      ∀ u < 256, u ≠ 255 → (withFreq [(255, 1)]).freq.read u = 0#64) ∧
    ((withFreq [(0, 2 ^ 64 - 1)]).freq.read 0 = 0xFFFFFFFFFFFFFFFF#64 ∧
      ∀ u < 256, u ≠ 0 → (withFreq [(0, 2 ^ 64 - 1)]).freq.read u = 0#64) := by decide +kernel

/-- For BuildSortsTheLeaves, BuildCompletes, BuildWritesCanonicalRecords, BuildMakesATree, BuildSumsFrequencies,
BuildKeepsTheOrder, BuildGivesEveryByteAPath and BuildPathsAreShort: one leaf of the greatest frequency, and two leaves whose sum is the
greatest that fits. -/
theorem witness_buildable :
    (withFreq [(0, 2 ^ 64 - 1)]).buildable ∧ (withFreq [(0x41, 2 ^ 63), (0x42, 2 ^ 63 - 1)]).buildable ∧
      (withFreq [(0x41, 2 ^ 63), (0x42, 2 ^ 63 - 1)]).leafCount = 2 ∧
      (withFreq [(0x41, 2 ^ 63), (0x42, 2 ^ 63 - 1)]).freqTotal = 2 ^ 64 - 1 := by decide +kernel

/-- Vector V10 (a) and (c): an overflow at the first merge step and one at the second, with their VALUE. -/
theorem witness_BuildOverflowsExactly :
    (buildEffect true (withFreq [(0, 2 ^ 63), (1, 2 ^ 63)])).result = .treeConstructionFailure ∧
      (buildEffect true (withFreq [(0, 2 ^ 63), (1, 2 ^ 63)])).errInfo = 0x1000000000000002#64 ∧
      (buildEffect true (withFreq [(5, 1), (6, 2 ^ 64 - 1), (7, 3)])).result = .treeConstructionFailure ∧
      (buildEffect true (withFreq [(5, 1), (6, 2 ^ 64 - 1), (7, 3)])).errInfo = 0x1000000000000004#64 := by
  decide +kernel

/-- The least sum that does not fit. -/
theorem witness_BuildFaultEffects :
    2 ≤ (withFreq [(0, 1), (255, 2 ^ 64 - 1)]).leafCount ∧
      (withFreq [(0, 1), (255, 2 ^ 64 - 1)]).freqTotal = 2 ^ 64 ∧
      (buildEffect true (withFreq [(0, 1), (255, 2 ^ 64 - 1)])).result = .treeConstructionFailure := by decide +kernel

/-- Two states that differ in NODE and PAY_LEN but not in FREQ. -/
theorem witness_BuildIsDeterminedByFreq :
    (∀ v < 256, (withFreq [(0x41, 4)]).freq.read v =
        ({ withFreq [(0x41, 4)] with node := treeOf [7], payLen := 3#64 } : State).freq.read v) ∧
      withFreq [(0x41, 4)] ≠ { withFreq [(0x41, 4)] with node := treeOf [7], payLen := 3#64 } :=
  ⟨fun _ _ => rfl, by
    intro h
    have := congrArg State.payLen h
    exact absurd this (by decide)⟩

/-! Node arrays. -/

/-- NODE_COUNT `n` over V1's tree with the given word 0 of its branch, one payload byte and one symbol. -/
def arrayOf (n : BitVec 10) (w : Nat) : State :=
  withBits (withPay { State.reset with nodeCount := n, node := treeOf [0x4200, 0x4100, w] } [0x41]) [] 0 1

/-- NODE_COUNT 0 and 512, a branch whose right child is its own index, and a canonical array. -/
theorem witness_TreeCheckRaises :
    (arrayOf 0#10 1).nodeCount.toNat = 0 ∧ 511 < (arrayOf 512#10 1).nodeCount.toNat ∧
    ((arrayOf 3#10 0x0000000200000001).nodeCount.toNat ≤ 511 ∧ 2 < (arrayOf 3#10 0x0000000200000001).nodeCount.toNat ∧
      recordOk 2 (nodeWord0 (arrayOf 3#10 0x0000000200000001).node 2) = false ∧
      ∀ i < 2, recordOk i (nodeWord0 (arrayOf 3#10 0x0000000200000001).node i) = true) ∧
    treeCheck (arrayOf 3#10 0x0000000100000001) = none ∧
    ∀ n w, (arrayOf n w).payLen ≠ 0#64 ∧ (arrayOf n w).payLen.toNat ≤ Config.platform.payMax ∧
      (arrayOf n w).symCount ≠ 0#64 ∧ (arrayOf n w).symCount.toNat ≤ Config.platform.outMax := by
  obtain ⟨a, b, c, -⟩ := capacities_hold_eight
  refine ⟨by decide, by decide, by decide +kernel, by decide +kernel, fun n w => ?_⟩
  change 1#64 ≠ 0#64 ∧ (1#64).toNat ≤ _ ∧ 1#64 ≠ 0#64 ∧ (1#64).toNat ≤ _
  exact ⟨by decide, Nat.le_trans (by decide) a, by decide, Nat.le_trans (by decide) c⟩

theorem witness_FindPathIsLeftFirst :
    treeCheck abTree = none ∧ 0 < abTree.nodeCount.toNat ∧ 2 < abTree.nodeCount.toNat ∧
      findPath abTree.node 3 2 0x41#8 = some [true] ∧ findPath abTree.node 1 0 0x41#8 = none := by decide +kernel

theorem witness_PathsArePrefixFree :
    abTree.findRootPath 0x41#8 = some [true] ∧ [true] <+: [true] ∧ abTree.findRootPath 0x42#8 = some [false] := by
  decide +kernel

/-! Payloads. -/

/-- The payload of V1. -/
def aaaabb : State := withPay abTree [0x41, 0x41, 0x41, 0x41, 0x42, 0x42]

theorem aaaabb_bits : aaaabb.payloadBits 6 = some [true, true, true, true, false, false] := by decide +kernel

/-- A successful ENCODE, and one that ends with a fault. -/
theorem witness_EncodeFrame :
    (encodeEffect Params.smallest aaaabb).result.isFault = false ∧
      (encodeEffect Params.smallest { aaaabb with nodeCount := 0#10 }).result.isFault = true ∧
      ({ aaaabb with payLen := 0#64 } : State).payLen = 0#64 := by decide +kernel

/-- No payload, and one longer than any PAY. -/
theorem witness_EncodeTestsTheLength :
    State.reset.payLen = 0#64 ∧
      Config.platform.payMax < ({ State.reset with payLen := 0x1000000000000000#64 } : State).payLen.toNat :=
  ⟨rfl, capacities_hold_eight.2.2.2.1⟩

/-- For EncodeFillsTheCache too: byte 0x41 is in the payload, byte 0x43 is not. -/
theorem witness_EncodeWritesTheStream :
    aaaabb.payLen ≠ 0#64 ∧ aaaabb.payLen.toNat ≤ Config.platform.payMax ∧ treeCheck aaaabb = none ∧
      aaaabb.payloadBits aaaabb.payLen.toNat = some [true, true, true, true, false, false] ∧
      6 ≤ 8 * Config.platform.bitbufMax ∧ aaaabb.pay.read 0 = 0x41#8 ∧
      ∀ j < aaaabb.payLen.toNat, aaaabb.pay.read j ≠ 0x43#8 := by
  obtain ⟨a, b, c, -⟩ := capacities_hold_eight
  exact ⟨by decide, Nat.le_trans (by decide) a, by decide +kernel, by decide +kernel, by omega, by decide +kernel,
    by decide +kernel⟩

/-- Vector V12: the third byte is the first without a path. -/
theorem witness_EncodeRaisesNoPath :
    (withPay abTree [0x41, 0x41, 0x43]).payLen.toNat ≤ Config.platform.payMax ∧
      treeCheck (withPay abTree [0x41, 0x41, 0x43]) = none ∧
      2 < (withPay abTree [0x41, 0x41, 0x43]).payLen.toNat ∧
      (withPay abTree [0x41, 0x41, 0x43]).payloadBits 2 = some [true, true] ∧
      2 ≤ 8 * Config.platform.bitbufMax ∧
      (withPay abTree [0x41, 0x41, 0x43]).findRootPath ((withPay abTree [0x41, 0x41, 0x43]).pay.read 2) = none := by
  obtain ⟨a, b, c, -⟩ := capacities_hold_eight
  exact ⟨Nat.le_trans (by decide) a, by decide +kernel, by decide, by decide +kernel, by omega, by decide +kernel⟩

/-- Vector V13 (b): 65 bits for a buffer of 64. -/
theorem witness_EncodeRaisesStreamTooLong :
    ∃ (p : Params) (s : State) (q bits : Path), s.payLen.toNat ≤ p.payMax ∧ treeCheck s = none ∧
      64 < s.payLen.toNat ∧ s.payloadBits 64 = some bits ∧ bits.length ≤ 8 * p.bitbufMax ∧
      s.findRootPath (s.pay.read 64) = some q ∧ 8 * p.bitbufMax < bits.length + q.length :=
  ⟨{ Params.smallest with payMax := 72 }, withPay abTree (List.replicate 65 0x41), [true], List.replicate 64 true, by
    decide +kernel⟩

/-- The one-node tree of 0x41 with a payload. -/
def oneLeaf (l : List Nat) : State := withPay { State.reset with node := treeOf [0x4100], nodeCount := 1#10 } l

/-- A payload of the tree's byte alone, and one with another byte second. -/
theorem witness_EncodeOnAOneNodeTree :
    ((oneLeaf [0x41, 0x41, 0x41]).nodeCount = 1#10 ∧
      nodeWord0 (oneLeaf [0x41, 0x41, 0x41]).node 0 = (0x41#8).setWidth 64 <<< 8 ∧
      (oneLeaf [0x41, 0x41, 0x41]).payLen ≠ 0#64 ∧
      (oneLeaf [0x41, 0x41, 0x41]).payLen.toNat ≤ Config.platform.payMax ∧
      ∀ j < (oneLeaf [0x41, 0x41, 0x41]).payLen.toNat, (oneLeaf [0x41, 0x41, 0x41]).pay.read j = 0x41#8) ∧
    ((oneLeaf [0x41, 0x42]).nodeCount = 1#10 ∧
      nodeWord0 (oneLeaf [0x41, 0x42]).node 0 = (0x41#8).setWidth 64 <<< 8 ∧ (oneLeaf [0x41, 0x42]).payLen ≠ 0#64 ∧
      (oneLeaf [0x41, 0x42]).payLen.toNat ≤ Config.platform.payMax ∧ 1 < (oneLeaf [0x41, 0x42]).payLen.toNat ∧
      (∀ k < 1, (oneLeaf [0x41, 0x42]).pay.read k = 0x41#8) ∧ (oneLeaf [0x41, 0x42]).pay.read 1 ≠ 0x41#8) := by
  obtain ⟨a, b, c, -⟩ := capacities_hold_eight
  exact ⟨⟨rfl, by decide +kernel, by decide, Nat.le_trans (by decide) a, by decide +kernel⟩,
    ⟨rfl, by decide +kernel, by decide, Nat.le_trans (by decide) a, by decide, by decide +kernel, by decide +kernel⟩⟩

/-! Streams. -/

/-- The stream of V1, six bits for six symbols. -/
def f0 : State := withBits abTree [0xF0] 6 6

theorem witness_DecodeFrame :
    (decodeEffect Params.smallest f0).result.isFault = false ∧
      (decodeEffect Params.smallest { f0 with bitCount := 5#64 }).result.isFault = true := by decide +kernel

theorem witness_DecodeOfNothing : State.reset.symCount = 0#64 := rfl

/-- A bit count above every capacity. -/
def overlong : State := { f0 with bitCount := 0x8000000000000000#64 }

/-- More symbols than any OUT holds; more bits than any BITBUF holds. -/
theorem witness_DecodeTestsTheCapacities :
    Config.platform.outMax < ({ f0 with symCount := 0x1000000000000000#64 } : State).symCount.toNat ∧
      overlong.symCount ≠ 0#64 ∧ overlong.symCount.toNat ≤ Config.platform.outMax ∧ treeCheck overlong = none ∧
      tagField (nodeWord0 overlong.node overlong.root) = true ∧
      8 * Config.platform.bitbufMax < overlong.bitCount.toNat := by
  obtain ⟨a, b, c, d, e, f⟩ := capacities_hold_eight
  refine ⟨f, by decide, Nat.le_trans (by decide) c, by decide +kernel, by decide +kernel, ?_⟩
  change 8 * Config.platform.bitbufMax < 2 ^ 63
  omega

theorem witness_DecodeWithALeafRoot :
    (withBits (oneLeaf []) [] 0 6).symCount ≠ 0#64 ∧
      (withBits (oneLeaf []) [] 0 6).symCount.toNat ≤ Config.platform.outMax ∧
      treeCheck (withBits (oneLeaf []) [] 0 6) = none ∧
      tagField (nodeWord0 (withBits (oneLeaf []) [] 0 6).node (withBits (oneLeaf []) [] 0 6).root) = false := by
  obtain ⟨a, b, c, -⟩ := capacities_hold_eight
  exact ⟨by decide, Nat.le_trans (by decide) c, by decide +kernel, by decide +kernel⟩

/-- All six symbols of V1, whose bits are exactly the counted ones. -/
theorem witness_DecodeEmitsTheSymbols :
    f0.symCount.toNat ≤ Config.platform.outMax ∧ treeCheck f0 = none ∧
      tagField (nodeWord0 f0.node f0.root) = true ∧ f0.bitCount.toNat ≤ 8 * Config.platform.bitbufMax ∧
      [0x41#8, 0x41#8, 0x41#8, 0x41#8, 0x42#8, 0x42#8].length = f0.symCount.toNat ∧
      List.Forall₂ (fun b p => isPath f0.node f0.root p b) [0x41#8, 0x41#8, 0x41#8, 0x41#8, 0x42#8, 0x42#8]
        [[true], [true], [true], [true], [false], [false]] ∧
      [[true], [true], [true], [true], [false], [false]].flatten.length ≤ f0.bitCount.toNat ∧
      (List.range 6).map (bitRead f0.bitbuf) = [[true], [true], [true], [true], [false], [false]].flatten := by
  obtain ⟨a, b, c, -⟩ := capacities_hold_eight
  have hA : isPath f0.node f0.root [true] 0x41#8 := ⟨by decide +kernel, by decide +kernel, by decide +kernel⟩
  have hB : isPath f0.node f0.root [false] 0x42#8 := ⟨by decide +kernel, by decide +kernel, by decide +kernel⟩
  have h6 : f0.bitCount.toNat = 6 := by decide
  exact ⟨Nat.le_trans (by decide) c, by decide +kernel, by decide +kernel, by omega, by decide,
    .cons hA (.cons hA (.cons hA (.cons hA (.cons hB (.cons hB .nil))))), by decide, by decide +kernel⟩

/-- One counted bit for two symbols (vector V19): it is the first symbol's, and the second has none. -/
theorem witness_DecodeRunsOutOfBits :
    [0x41#8].length < (withBits abTree [0xF0] 1 2).symCount.toNat ∧
      (withBits abTree [0xF0] 1 2).symCount.toNat ≤ Config.platform.outMax ∧
      treeCheck (withBits abTree [0xF0] 1 2) = none ∧
      tagField (nodeWord0 (withBits abTree [0xF0] 1 2).node (withBits abTree [0xF0] 1 2).root) = true ∧
      (withBits abTree [0xF0] 1 2).bitCount.toNat ≤ 8 * Config.platform.bitbufMax ∧
      List.Forall₂ (fun b p => isPath (withBits abTree [0xF0] 1 2).node (withBits abTree [0xF0] 1 2).root p b)
        [0x41#8] [[true]] ∧
      [[true]].flatten.length ≤ (withBits abTree [0xF0] 1 2).bitCount.toNat ∧
      bitRead (withBits abTree [0xF0] 1 2).bitbuf 0 = true ∧
      ¬ ∃ (b : Byte) (p : Path), isPath (withBits abTree [0xF0] 1 2).node (withBits abTree [0xF0] 1 2).root p b ∧
        [[true]].flatten.length + p.length ≤ (withBits abTree [0xF0] 1 2).bitCount.toNat ∧
        ∀ i (h : i < p.length), bitRead (withBits abTree [0xF0] 1 2).bitbuf ([[true]].flatten.length + i) = p[i] := by
  obtain ⟨a, b, c, -⟩ := capacities_hold_eight
  have hA : isPath abTree.node abTree.root [true] 0x41#8 := ⟨by decide +kernel, by decide +kernel, by decide +kernel⟩
  have h1 : (withBits abTree [0xF0] 1 2).bitCount.toNat = 1 := by decide
  refine ⟨by decide, Nat.le_trans (by decide) c, by decide +kernel, by decide +kernel, by omega, .cons hA .nil,
    by decide, by decide +kernel, ?_⟩
  rintro ⟨b, p, hp, hl, -⟩
  cases p with
  | nil => exact absurd hp.1 (by decide +kernel)
  | cons x p =>
    simp at hl
    omega

theorem witness_DecodeReadsOnlyCountedBits :
    (∀ i < f0.bitCount.toNat, bitRead (bytesOf 3 [0xF3]) i = bitRead f0.bitbuf i) ∧
      bitRead (bytesOf 3 [0xF3]) 6 ≠ bitRead f0.bitbuf 6 := by decide +kernel

/-- A successful ENCODE, on the platform. -/
theorem witness_DecodeInvertsEncode :
    (oneLeaf [0x41]).payLen ≠ 0#64 ∧ (oneLeaf [0x41]).payLen.toNat ≤ Config.platform.outMax ∧
      ∃ t, exec .encode (oneLeaf [0x41]) = .next t ∧ t.result = .ok := by
  obtain ⟨a, b, c, -⟩ := capacities_hold_eight
  refine ⟨by decide, Nat.le_trans (by decide) c, encodeEffect Config.platform (oneLeaf [0x41]), rfl, ?_⟩
  have hmax : ¬ Config.platform.payMax < (oneLeaf [0x41]).clearCache.payLen.toNat := Nat.not_lt.mpr
    (Nat.le_trans (show (oneLeaf [0x41]).clearCache.payLen.toNat ≤ 8 by decide) a)
  have hcheck : treeCheck (oneLeaf [0x41]).clearCache = none := by decide +kernel
  have hpath : (oneLeaf [0x41]).clearCache.findRootPath ((oneLeaf [0x41]).clearCache.pay.read 0) = some [] := by
    decide +kernel
  have hlen : (oneLeaf [0x41]).clearCache.payLen.toNat = 1 := by decide
  have hne : (oneLeaf [0x41]).clearCache.payLen ≠ 0#64 := by decide
  simp only [encodeEffect, encodePayload, hne, hmax, hcheck, if_false]
  simp only [hlen, encodeLoop, encodeByte, cachedPath, cellsGet, EncodeWork.start, hpath, List.length_nil,
    Nat.add_zero, Nat.not_lt_zero, if_false, State.finish]

/-- The payload 0x61 0x62 with its counts. -/
theorem witness_RoundTripThroughBuild :
    1 ≤ (withPay (withFreq [(0x61, 1), (0x62, 1)]) [0x62, 0x61]).payLen.toNat ∧
      (withPay (withFreq [(0x61, 1), (0x62, 1)]) [0x62, 0x61]).payLen.toNat ≤ Config.platform.payMax ∧
      (withPay (withFreq [(0x61, 1), (0x62, 1)]) [0x62, 0x61]).payLen.toNat ≤ Config.platform.outMax ∧
      ∀ v < 256, ((withFreq [(0x61, 1), (0x62, 1)]).freq.read v).toNat =
        (List.range 2).countP (fun j => (bytesOf 2 [0x62, 0x61]).read j == BitVec.ofNat 8 v) := by
  obtain ⟨a, b, c, -⟩ := capacities_hold_eight
  exact ⟨by decide, Nat.le_trans (by decide) a, Nat.le_trans (by decide) c, by decide +kernel⟩

theorem witness_SingleSymbolNeedsNoBits :
    0x41 < 256 ∧ 5#64 ≠ 0#64 ∧ (5#64).toNat ≤ Config.platform.outMax ∧
      (withFreq [(0x41, 5)]).freq.read 0x41 = 5#64 ∧
      ∀ u < 256, u ≠ 0x41 → (withFreq [(0x41, 5)]).freq.read u = 0#64 := by
  obtain ⟨a, b, c, -⟩ := capacities_hold_eight
  exact ⟨by decide, by decide, Nat.le_trans (by decide) c, by decide +kernel, by decide +kernel⟩

/-- A state that meets the invariant, with a command word about to be written. -/
theorem witness_StepKeepsTheInvariant :
    (State.reset.withCommand 1#64).Inv ∧ ∃ t, step (State.reset.withCommand 1#64) = .next t := by
  refine ⟨⟨?_, ?_, ?_, rfl, .inl ⟨rfl, rfl⟩, Nat.zero_le _⟩, _, rfl⟩
  · exact ⟨⟨.nil, nofun⟩, ⟨.nil, nofun⟩, ⟨.nil, nofun⟩, ⟨.nil, nofun⟩, ⟨.nil, nofun⟩⟩
  · exact ⟨.nil, nofun, nofun⟩
  · decide

end Sys2Proof.Tests
end

section
/-! PROOFS. Where an access lands (10_state R27, 20_memory R66, R70) and what it does to an idle block. -/

namespace Sys2Proof.Machine

/-- The place a location names exists: it lies inside its memory (20_memory R60). -/
def Loc.inRange (p : Params) : Loc → Prop
  | .freq v => v < 256
  | .nodeWord k => k < 1022
  | .payWord n => 8 * n + 8 ≤ p.payMax
  | .bitbufWord n => 8 * n + 8 ≤ p.bitbufMax
  | .outWord n => 8 * n + 8 ≤ p.outMax
  | _ => True

theorem locateAbs_lt {p : Params} {addr off : Nat} {win : Window} (h : locateAbs p addr = some (win, off)) :
    off < p.windowSize win := by
  have inside : ∀ {w : Window}, inWindow p addr w = true → addr - p.windowBase w < p.windowSize w := by
    intro w hw
    simp only [inWindow, Bool.and_eq_true, decide_eq_true_eq] at hw
    omega
  unfold locateAbs at h
  split_ifs at h with hreg hpay hbit hout <;> cases h
  · exact inside hreg
  · exact inside hpay
  · exact inside hbit
  · exact inside hout

theorem locate_lt {p : Params} {a : BusAddr} {off : Nat} {win : Window} (h : locate p a = some (win, off)) :
    off < p.windowSize win := by
  match a with
  | .abs addr => exact locateAbs_lt h
  | .at w o =>
    simp only [locate] at h
    split at h
    · cases h; assumption
    · exact locateAbs_lt h

theorem regLoc_inRange (p : Params) {off : Nat} (h8 : off % 8 = 0) : (regLoc off).inRange p := by
  by_cases h : off < 0x0040
  · obtain ⟨k, rfl⟩ : ∃ k, off = 8 * k := ⟨off / 8, by omega⟩
    have hk : k < 8 := by omega
    interval_cases k <;> trivial
  · rw [regLoc_ranges (by omega)]
    split_ifs with h1 hfreq h3 hnode
    · trivial
    · show (off - 0x0800) / 8 < 256
      omega
    · trivial
    · show (off - 0x2000) / 8 < 1022
      omega
    · trivial

theorem locAt_inRange {p : Params} (hp : p.valid) {win : Window} {off : Nat} (h8 : off % 8 = 0)
    (h : off < p.windowSize win) : (locAt win off).inRange p := by
  obtain ⟨⟨⟨hpay, -⟩, ⟨hbit, -⟩, ⟨hout, -⟩⟩, -⟩ := hp
  cases win with
  | reg => exact regLoc_inRange p h8
  | pay | bitbuf | out => simp only [Params.windowSize, locAt, Loc.inRange] at h ⊢; omega

/-- An access the block takes reaches a place that exists. -/
theorem busTarget_inRange {p : Params} (hp : p.valid) {a : BusAddr} {bytes : Nat} {l : Loc}
    (h : busTarget p a bytes = .loc l) : l.inRange p := by
  unfold busTarget at h
  split at h
  · cases h
  · rename_i win off hl
    split at h
    · rename_i hwf
      cases h
      simp only [Access.wellFormed, Bool.and_eq_true, beq_iff_eq] at hwf
      exact locAt_inRange hp hwf.2 (locate_lt hl)
    · cases h

/-- A 64-bit read inside the register window of an idle block: it answers the location's value and changes
nothing else (20_memory R69). -/
theorem step_read_reg {s : State} {off : Nat} {e : Bool} {rest : List HostEvent} (hs : s.seq = .idle)
    (hh : s.host = { early := e, act := .read (.at .reg off) 8 } :: rest) (h8 : off % 8 = 0) (ho : off < 0x4000) :
    step s = .next { s with host := rest, lastRead := some (s.readLoc (regLoc off)) } := by
  have hidle : s.seq.isBusy = false := by rw [hs]; rfl
  rw [step_perform hh (.inl hs)]
  simp [perform, busTarget_reg _ h8 ho, State.hostRead, hidle]

/-- A 64-bit write inside the register window of an idle block, to another location than CMD. -/
theorem step_write_reg {s : State} {off : Nat} {v : Word} {e : Bool} {rest : List HostEvent} (hs : s.seq = .idle)
    (hh : s.host = { early := e, act := .write (.at .reg off) 8 v } :: rest) (h8 : off % 8 = 0) (h0 : off ≠ 0)
    (ho : off < 0x4000) :
    step s = .next (({ s with host := rest } : State).writeLoc (regLoc off) v) := by
  have hidle : s.seq.isBusy = false := by rw [hs]; rfl
  rw [step_perform hh (.inl hs)]
  simp [perform, busTarget_reg _ h8 ho, hostWrite, hidle, regLoc_ne_cmd h0]

end Sys2Proof.Machine
end

section
/-! PROOFS. What each command can do to the state, said once (40_build R120, 41_encode R150, 42_decode R180;
60_exceptions R214, R215). -/

namespace Sys2Proof.Machine

/-- Every KIND belongs to a RESULT that is a fault (60_exceptions R210, R212). -/
@[simp] theorem result_isFault (k : FaultKind) : k.result.isFault = true := by
  cases k <;> rfl

/-- Everything BUILD can do: the empty input, a tree of at most 511 nodes, or the overflow fault
(40_build R121, R127, R129). -/
theorem buildEffect_cases (s : State) :
    buildEffect true s = { s.clearCache with nodeCount := 0#10 }.finish .emptyInput ∨
    (∃ nodes, 1 ≤ nodes.length ∧ nodes.length ≤ 511 ∧ buildTree true s.freqTable = .ok nodes ∧
      buildEffect true s = { s.clearCache with
        node := writeNodes s.node nodes, nodeCount := BitVec.ofNat 10 nodes.length }.finish .ok) ∨
    (∃ value, buildTree true s.freqTable = .error (.frequencySum, value) ∧
      buildEffect true s = s.clearCache.discardTree.raise .frequencySum value) := by
  have hfreq : s.clearCache.freqTable = s.freqTable := rfl
  have hcount := leafCount_le s
  rw [← leafCount_eq] at hcount
  rcases buildTree_cases true (length_freqTable s).le with
    ⟨-, hb⟩ | ⟨hpos, -, nodes, w, hb, hm, hk⟩ | ⟨-, -, nf, -, -, hb, -⟩
  · exact .inl (by simp only [buildEffect, hfreq, hb])
  · obtain ⟨-, hlen, -⟩ := hm.finished hpos hk
    refine .inr (.inl ⟨nodes, by omega, by omega, hb, ?_⟩)
    cases nodes with
    | nil => simp only [List.length_nil] at hlen; omega
    | cons n rest => simp only [buildEffect, hfreq, hb, clearCache_node]
  · exact .inr (.inr ⟨nf, hb, by simp only [buildEffect, hfreq, hb]⟩)

@[simp] theorem flushByte_work (r : EncodeRun) : (flushByte r).work = r.work := by
  simp only [flushByte]; split <;> rfl

/-- An encode that ends well has passed both tests and run over the whole payload, keeping what the loop keeps
(41_encode R151, R152). -/
theorem encodePayload_ok {p : Params} {st : State} {r' : EncodeRun} (h : encodePayload p st = .ok r') :
    st.payLen.toNat ≤ p.payMax ∧ treeCheck st = none ∧
      ∃ r, EncodeKeeps p st st.bitbuf r ∧ r.work.j = st.payLen.toNat ∧ r' = flushByte r := by
  unfold encodePayload at h
  split at h
  · cases h
  rename_i hlen
  split at h
  · cases h
  rename_i htree
  refine ⟨by omega, htree, ?_⟩
  rcases encodeLoop_cases p st st.bitbuf st.payLen.toNat _ (encodeKeeps_start p st st.bitbuf) with
    ⟨r, hloop, hkeeps, hj⟩ | ⟨j, bits, -, -, -, -, ⟨-, hloop⟩ | ⟨q, -, -, hloop⟩⟩ <;> rw [hloop] at h <;> cases h
  exact ⟨r, hkeeps, by simpa [EncodeWork.start] using hj, rfl⟩

/-- Everything ENCODE can do: nothing to encode, the whole payload encoded with a tree that passes TreeCheck, or a
fault (41_encode R150, R151, R159). -/
theorem encodeEffect_cases (p : Params) (s : State) :
    (s.payLen = 0#64 ∧ encodeEffect p s = { s.clearCache with bitCount := 0#64 }.finish .ok) ∨
    (∃ r, s.payLen.toNat ≤ p.payMax ∧ treeCheck s.clearCache = none ∧ EncodeKeeps p s.clearCache s.bitbuf r ∧
      r.work.j = s.payLen.toNat ∧
      encodeEffect p s = { s.clearCache with
        bitbuf := (flushByte r).bitbuf, bitCount := BitVec.ofNat 64 r.work.nbits, cc := .known r.cc }.finish .ok) ∨
    (∃ kind value, encodePayload p s.clearCache = .error (kind, value) ∧
      encodeEffect p s = s.clearCache.discardStream.raise kind value) := by
  by_cases h0 : s.payLen = 0#64
  · exact .inl ⟨h0, if_pos h0⟩
  right
  cases hpay : encodePayload p s.clearCache with
  | error e => exact .inr ⟨e.1, e.2, rfl, by simp [encodeEffect, h0, hpay]⟩
  | ok r' =>
    obtain ⟨hlen, htree, r, hkeeps, hj, rfl⟩ := encodePayload_ok hpay
    exact .inl ⟨r, hlen, htree, hkeeps, hj, by simp [encodeEffect, h0, hpay]⟩

/-- A decode that ends well has written OUT below SYM_COUNT only (42_decode R182, R187). -/
theorem decodeStream_ok {p : Params} {s : State} {out : Memory 8} (h : decodeStream p s = .ok out) :
    s.symCount.toNat ≤ p.outMax ∧ out.draw = s.out.draw ∧
      (∀ k, s.symCount.toNat ≤ k → out.read k = s.out.read k) ∧ (s.out.wf → out.wf) ∧
      (s.out.within p.outMax → out.within p.outMax) := by
  unfold decodeStream at h
  split at h
  · cases h
  rename_i hfit
  have hfit : s.symCount.toNat ≤ p.outMax := by omega
  refine ⟨hfit, ?_⟩
  split at h
  · cases h
  split at h
  · split at h
    · cases h
    · obtain ⟨hdraw, hread, hwf, hwithin⟩ := walk_ok s _ _ _ _ h
      exact ⟨hdraw, hread, hwf, hwithin _ hfit⟩
  · cases h
    refine ⟨fillOut_draw _ _ _, fun k hk => ?_, fillOut_wf _ _, fun hw => fillOut_within _ hw hfit⟩
    rw [read_fillOut, if_neg (by omega)]

/-- Everything DECODE can do: nothing to decode, SYM_COUNT symbols written to the first bytes of OUT, or a fault
(42_decode R180, R181, R187, R188). -/
theorem decodeEffect_cases (p : Params) (s : State) :
    (s.symCount = 0#64 ∧ decodeEffect p s = { s with outLen := 0#64 }.finish .ok) ∨
    (∃ out, s.symCount.toNat ≤ p.outMax ∧ decodeStream p s = .ok out ∧ out.draw = s.out.draw ∧
      (∀ k, s.symCount.toNat ≤ k → out.read k = s.out.read k) ∧ (s.out.wf → out.wf) ∧
      (s.out.within p.outMax → out.within p.outMax) ∧
      decodeEffect p s = { s with out := out, outLen := s.symCount }.finish .ok) ∨
    (∃ kind value, decodeStream p s = .error (kind, value) ∧
      decodeEffect p s = s.discardOutput.raise kind value) := by
  by_cases h0 : s.symCount = 0#64
  · exact .inl ⟨h0, if_pos h0⟩
  right
  cases hd : decodeStream p s with
  | error e => exact .inr ⟨e.1, e.2, rfl, by simp [decodeEffect, h0, hd]⟩
  | ok out =>
    obtain ⟨hfit, hdraw, hread, hwf, hwithin⟩ := decodeStream_ok hd
    exact .inl ⟨out, hfit, rfl, hdraw, hread, hwf, hwithin, by simp [decodeEffect, h0, hd]⟩

end Sys2Proof.Machine
end

section
/-! PROOFS. The invariant of the machine: reset meets it and every step keeps it. -/

namespace Sys2Proof.Machine

/-! ### The part of the invariant that no outcome touches -/

/-- The invariant without the working values and the outcome: memories and cache in form, draws fresh, OUT_LEN
within OUT. -/
structure State.StorageOk (s : State) : Prop where
  freq : s.freq.wf ∧ s.freq.within 256
  node : s.node.wf ∧ s.node.within 1022
  pay : s.pay.wf ∧ s.pay.within Config.platform.payMax
  bitbuf : s.bitbuf.wf ∧ s.bitbuf.within Config.platform.bitbufMax
  out : s.out.wf ∧ s.out.within Config.platform.outMax
  cache : s.cc.ok
  draws : s.drawsOk
  outLen : s.outLen.toNat ≤ Config.platform.outMax

theorem inv_iff (s : State) : s.Inv ↔ s.StorageOk ∧ s.workOk ∧ s.outcomeOk := by
  constructor
  · rintro ⟨⟨hf, hn, hp, hb, ho⟩, hc, hd, hw, hr, hl⟩
    exact ⟨⟨hf, hn, hp, hb, ho, hc, hd, hl⟩, hw, hr⟩
  · rintro ⟨⟨hf, hn, hp, hb, ho, hc, hd, hl⟩, hw, hr⟩
    exact ⟨⟨hf, hn, hp, hb, ho⟩, hc, hd, hw, hr, hl⟩

theorem unwritten_ok {w : Nat} (d n : Nat) : (Memory.unwritten w d).wf ∧ (Memory.unwritten w d).within n :=
  ⟨unwritten_wf d, unwritten_within d n⟩

/-- Handing one memory the next draw keeps the draws apart, and the one after it fresh. -/
theorem draws_set_fresh {l : List Nat} {d : Nat} (i : Nat) (h : l.Nodup ∧ ∀ x ∈ l, x < d) :
    (l.set i d).Nodup ∧ ∀ x ∈ l.set i d, x < d + 1 := by
  obtain ⟨hnodup, hlt⟩ := h
  refine ⟨hnodup.set fun hd => Nat.lt_irrefl d (hlt d hd), fun x hx => ?_⟩
  rcases List.mem_or_eq_of_mem_set hx with hx | rfl
  · exact Nat.lt_succ_of_lt (hlt x hx)
  · exact Nat.lt_succ_self x

/-- Five consecutive draws, one for each memory. -/
theorem draws_range' (d : Nat) : (List.range' d 5).Nodup ∧ ∀ x ∈ List.range' d 5, x < d + 5 :=
  ⟨List.nodup_range', fun _ hx => (List.mem_range'_1.1 hx).2⟩

theorem reset_storageOk : State.reset.StorageOk where
  freq := unwritten_ok _ _
  node := unwritten_ok _ _
  pay := unwritten_ok _ _
  bitbuf := unwritten_ok _ _
  out := unwritten_ok _ _
  cache := ⟨.nil, nofun, nofun⟩
  draws := draws_range' 0
  outLen := Nat.zero_le _

theorem platformReset_storageOk (s : State) : s.platformReset.StorageOk where
  freq := unwritten_ok _ _
  node := unwritten_ok _ _
  pay := unwritten_ok _ _
  bitbuf := unwritten_ok _ _
  out := unwritten_ok _ _
  cache := ⟨.nil, nofun, nofun⟩
  draws := draws_range' s.draw
  outLen := Nat.zero_le _

section
variable {s : State}

theorem State.StorageOk.clearCache (h : s.StorageOk) : s.clearCache.StorageOk :=
  { h with cache := ⟨.nil, nofun, nofun⟩ }

theorem State.StorageOk.discardTree (h : s.StorageOk) : s.discardTree.StorageOk :=
  { h with node := unwritten_ok _ _, draws := draws_set_fresh 1 h.draws }

theorem State.StorageOk.discardStream (h : s.StorageOk) : s.discardStream.StorageOk :=
  { h with bitbuf := unwritten_ok _ _, cache := trivial, draws := draws_set_fresh 3 h.draws }

theorem State.StorageOk.discardOutput (h : s.StorageOk) : s.discardOutput.StorageOk :=
  { h with out := unwritten_ok _ _, draws := draws_set_fresh 4 h.draws, outLen := Nat.zero_le _ }

/-! ### How a command ends -/

/-- An end without a fault: the working values are dead and ERR_INFO is 0 (60_exceptions R214). -/
theorem State.StorageOk.finish_inv (h : s.StorageOk) {r : ResultCode} (hr : r.isFault = false) :
    (s.finish r).Inv :=
  (inv_iff _).2 ⟨{ h with }, rfl, .inl ⟨hr, rfl⟩⟩

/-- An end with a fault: the working values are dead and ERR_INFO is of RESULT's cause (60_exceptions R215). -/
theorem State.StorageOk.raise_inv (h : s.StorageOk) (kind : FaultKind) (value : Nat) : (s.raise kind value).Inv :=
  (inv_iff _).2 ⟨{ h with }, rfl, .inr ⟨kind, value, rfl, rfl⟩⟩

theorem buildEffect_inv (h : s.StorageOk) : (buildEffect true s).Inv := by
  rcases buildEffect_cases s with heq | ⟨nodes, -, hlen, -, heq⟩ | ⟨value, -, heq⟩ <;> rw [heq]
  · exact State.StorageOk.finish_inv { h.clearCache with } rfl
  · refine State.StorageOk.finish_inv ?_ rfl
    obtain ⟨hwf, hwithin⟩ := h.node
    exact { h.clearCache with
      node := ⟨writeNodes_wf _ hwf, writeNodes_within _ hwithin (by omega)⟩
      draws := by simpa [State.drawsOk, State.draws] using h.draws }
  · exact h.clearCache.discardTree.raise_inv _ _

theorem encodeEffect_inv (h : s.StorageOk) : (encodeEffect Config.platform s).Inv := by
  rcases encodeEffect_cases Config.platform s with
    ⟨-, heq⟩ | ⟨r, -, htree, hkeeps, -, heq⟩ | ⟨kind, value, -, heq⟩ <;> rw [heq]
  · exact State.StorageOk.finish_inv { h.clearCache with } rfl
  · refine State.StorageOk.finish_inv ?_ rfl
    obtain ⟨hwf, hwithin⟩ := h.bitbuf
    have hroot : s.clearCache.root ≤ 510 := by
      obtain ⟨⟨-, hcount⟩, -⟩ := treeCheck_none.1 htree
      simp only [State.root]
      omega
    exact { h.clearCache with
      bitbuf := flushByte_bitbuf (hkeeps.wf hwf) (hkeeps.within hwithin) hkeeps.fits
      cache := ⟨hkeeps.rising, hkeeps.below, fun x hx => (hkeeps.paths x hx).trans hroot⟩
      draws := by simpa [State.drawsOk, State.draws, hkeeps.draw] using h.draws }
  · exact h.clearCache.discardStream.raise_inv _ _

theorem decodeEffect_inv (h : s.StorageOk) : (decodeEffect Config.platform s).Inv := by
  rcases decodeEffect_cases Config.platform s with
    ⟨-, heq⟩ | ⟨out, hfit, -, hdraw, -, hwf, hwithin, heq⟩ | ⟨kind, value, -, heq⟩ <;> rw [heq]
  · refine State.StorageOk.finish_inv ?_ rfl
    exact { h with outLen := Nat.zero_le _ }
  · refine State.StorageOk.finish_inv ?_ rfl
    exact { h with
      out := ⟨hwf h.out.1, hwithin h.out.2⟩
      draws := by simpa [State.drawsOk, State.draws, hdraw] using h.draws
      outLen := hfit }
  · exact h.discardOutput.raise_inv _ _

/-- Whatever the working values and the last outcome, a command ends in a state that meets the invariant. -/
theorem exec_inv {t : State} {i : Instr} (h : s.StorageOk) (he : exec i s = .next t) : t.Inv := by
  rw [exec_eq] at he
  cases he
  cases i with
  | build => exact buildEffect_inv h
  | encode => exact encodeEffect_inv h
  | decode => exact decodeEffect_inv h

/-! ### The acts of the outside -/

/-- A write to a place that exists, SEQ idle, keeps the storage in form. -/
theorem writeLoc_storageOk (h : s.StorageOk) {l : Loc} (hl : l.inRange Config.platform) (v : Word) :
    (s.writeLoc l v).StorageOk := by
  cases l with
  | cmd | errInfo | outLen | reserved => exact h
  | status | nodeCount | payLen | bitCount | symCount => exact { h with }
  | freq i => exact { h with freq := ⟨write_wf _ _ h.freq.1, write_within _ h.freq.2 hl⟩ }
  | nodeWord k => exact { h with node := ⟨write_wf _ _ h.node.1, write_within _ h.node.2 hl⟩ }
  | payWord n =>
    exact { h with
      pay := ⟨writeLanes_wf _ _ h.pay.1, writeLanes_within _ _ h.pay.2 hl⟩
      draws := by simpa [State.drawsOk, State.draws, State.writeLoc] using h.draws }
  | bitbufWord n =>
    exact { h with
      bitbuf := ⟨writeLanes_wf _ _ h.bitbuf.1, writeLanes_within _ _ h.bitbuf.2 hl⟩
      draws := by simpa [State.drawsOk, State.draws, State.writeLoc] using h.draws }
  | outWord n =>
    exact { h with
      out := ⟨writeLanes_wf _ _ h.out.1, writeLanes_within _ _ h.out.2 hl⟩
      draws := by simpa [State.drawsOk, State.draws, State.writeLoc] using h.draws }

/-- A host write touches neither SEQ nor the working values nor the outcome. -/
theorem writeLoc_control (s : State) (l : Loc) (v : Word) :
    (s.writeLoc l v).seq = s.seq ∧ (s.writeLoc l v).work = s.work ∧ (s.writeLoc l v).result = s.result ∧
      (s.writeLoc l v).errInfo = s.errInfo := by
  cases l <;> exact ⟨rfl, rfl, rfl, rfl⟩

theorem isBusy_eq_false {q : Seq} : q.isBusy = false ↔ q = .idle := by
  cases q <;> simp [Seq.isBusy]

theorem workOk_idle (hs : s.seq = .idle) : s.workOk ↔ s.work = .dead := by
  simp only [State.workOk, hs]

theorem writeLoc_inv (h : s.Inv) (hs : s.seq = .idle) {l : Loc} (hl : l.inRange Config.platform) (v : Word) :
    (s.writeLoc l v).Inv := by
  obtain ⟨hstore, hwork, hout⟩ := (inv_iff s).1 h
  obtain ⟨eseq, ework, eresult, eerr⟩ := writeLoc_control s l v
  refine (inv_iff _).2 ⟨writeLoc_storageOk hstore hl v, ?_, ?_⟩
  · rw [workOk_idle (eseq.trans hs), ework]
    exact (workOk_idle hs).1 hwork
  · rw [State.outcomeOk, eresult, eerr]
    exact hout

theorem withHost_inv (h : s.Inv) (rest : List HostEvent) : ({ s with host := rest } : State).Inv := by
  obtain ⟨hstore, hwork, hout⟩ := (inv_iff s).1 h
  exact (inv_iff _).2 ⟨{ hstore with }, hwork, hout⟩

/-- A read takes a draw at most, and none of a memory's (20_memory R69, R71). -/
theorem hostRead_inv (h : s.Inv) (l : Loc) : (s.hostRead l).Inv := by
  obtain ⟨hstore, hwork, hout⟩ := (inv_iff s).1 h
  obtain ⟨hnodup, hlt⟩ := hstore.draws
  unfold State.hostRead
  split
  · exact (inv_iff _).2
      ⟨{ hstore with draws := ⟨hnodup, fun d hd => Nat.lt_succ_of_lt (hlt d hd)⟩ }, hwork, hout⟩
  · exact (inv_iff _).2 ⟨{ hstore with }, hwork, hout⟩

theorem accept_storageOk (h : s.StorageOk) (i : Instr) : (s.accept i).StorageOk :=
  { h with }

/-- An accepted command stands at the working values it starts from (10_state R25). -/
theorem accept_inv (h : s.Inv) (i : Instr) : (s.accept i).Inv := by
  obtain ⟨hstore, -, hout⟩ := (inv_iff s).1 h
  refine (inv_iff _).2 ⟨accept_storageOk hstore i, ?_, hout⟩
  show Work.start i s = Work.start i (s.accept i)
  cases i <;> rfl

theorem platformReset_inv (s : State) : s.platformReset.Inv :=
  (inv_iff _).2 ⟨platformReset_storageOk s, rfl, .inl ⟨rfl, rfl⟩⟩

theorem presentCommand_inv {t : State} {w : Word} (h : s.Inv) (hp : presentCommand s w = .next t) : t.Inv := by
  obtain ⟨hstore, -, -⟩ := (inv_iff s).1 h
  rcases presentCommand_cases hp with ⟨r, -, rfl⟩ | ⟨i, -, ⟨-, rfl⟩ | ⟨-, he⟩⟩
  · exact hstore.raise_inv _ _
  · exact accept_inv h i
  · exact exec_inv (accept_storageOk hstore i) he

theorem hostWrite_inv {t : State} {l : Loc} {v : Word} (h : s.Inv) (hl : l.inRange Config.platform)
    (hp : hostWrite s l v = .next t) : t.Inv := by
  rcases hostWrite_cases hp with ⟨-, rfl⟩ | ⟨hidle, -, rfl⟩ | ⟨-, -, hc⟩
  · exact h
  · exact writeLoc_inv h (isBusy_eq_false.1 hidle) hl v
  · exact presentCommand_inv h hc

/-- Every act of the outside that the block takes keeps the invariant. -/
theorem perform_inv {t : State} {a : HostAct} (h : s.Inv) (hp : perform Config.platform s a = .next t) : t.Inv := by
  rcases perform_cases hp with ⟨-, rfl⟩ | ⟨addr, bytes, l, -, -, rfl⟩ | ⟨addr, bytes, v, l, -, hl, hw⟩
  · exact platformReset_inv s
  · exact hostRead_inv h l
  · exact hostWrite_inv h (busTarget_inRange platform_valid hl) hw

end

/-- Settles O57: reset's part of the invariant that no outcome touches, with dead working values and no fault. -/
theorem resetMeetsTheInvariant : Obligations.ResetMeetsTheInvariant :=
  (inv_iff _).2 ⟨reset_storageOk, rfl, .inl ⟨rfl, rfl⟩⟩

/-- Settles O58, along the cases of a step: the end of the running command, an idle block left alone, and each act
of the outside. -/
theorem stepKeepsTheInvariant : Obligations.StepKeepsTheInvariant := by
  intro s t h hstep
  rcases step_cases hstep with ⟨i, -, -, he⟩ | ⟨-, -, rfl⟩ | ⟨e, rest, -, -, hp⟩
  · obtain ⟨hstore, -, -⟩ := (inv_iff s).1 h
    exact exec_inv hstore he
  · exact h
  · exact perform_inv (withHost_inv h rest) hp

end Sys2Proof.Machine
end

section
/-! PROOFS. The frames of the three commands, from what each can do. -/

namespace Sys2Proof.Machine

/-- Settles O22: in each of BUILD's three endings every field outside its output is the old one, and the words past
the nodes written are not touched. -/
theorem buildFrame : Obligations.BuildFrame := by
  intro s
  refine ⟨buildEffect true s, exec_eq .build s, ?_⟩
  rcases buildEffect_cases s with heq | ⟨nodes, -, hlen, -, heq⟩ | ⟨value, -, heq⟩ <;> rw [heq]
  · refine ⟨rfl, rfl, rfl, rfl, rfl, rfl, rfl, rfl, rfl, rfl, rfl, rfl, rfl, ?_, nofun⟩
    exact fun _ => ⟨rfl, rfl, rfl, fun _ _ => rfl⟩
  · refine ⟨rfl, rfl, rfl, rfl, rfl, rfl, rfl, rfl, rfl, rfl, rfl, rfl, rfl, ?_, nofun⟩
    refine fun _ => ⟨rfl, rfl, rfl, fun k hk => read_writeNodes_above _ _ _ ?_⟩
    simp only [finish_nodeCount, BitVec.toNat_ofNat] at hk
    omega
  · exact ⟨rfl, rfl, rfl, rfl, rfl, rfl, rfl, rfl, rfl, rfl, rfl, rfl, rfl, nofun, fun _ => ⟨rfl, rfl⟩⟩

/-- Settles O40: in each of ENCODE's three endings every field outside its output is the old one, and the bytes past
the stream are not touched. -/
theorem encodeFrame : Obligations.EncodeFrame := by
  intro s
  refine ⟨encodeEffect Config.platform s, exec_eq .encode s, ?_⟩
  rcases encodeEffect_cases Config.platform s with
    ⟨-, heq⟩ | ⟨r, -, -, hkeeps, -, heq⟩ | ⟨kind, value, -, heq⟩ <;> rw [heq]
  · refine ⟨rfl, rfl, rfl, rfl, rfl, rfl, rfl, rfl, rfl, rfl, rfl, rfl, ?_, nofun⟩
    exact fun _ => ⟨rfl, rfl, rfl, rfl, fun _ _ => rfl⟩
  · refine ⟨rfl, rfl, rfl, rfl, rfl, rfl, rfl, rfl, rfl, rfl, rfl, rfl, ?_, nofun⟩
    obtain ⟨bits, -, hpacked⟩ := hkeeps.packed
    obtain ⟨-, -, habove⟩ := hpacked.flush
    refine fun _ => ⟨rfl, rfl, rfl, rfl, fun a ha => habove a ?_⟩
    have hfits := hkeeps.fits
    obtain ⟨⟨-, ⟨-, -, hmax⟩, -⟩, -⟩ := platform_valid
    simp only [finish_bitCount, BitVec.toNat_ofNat, hpacked.nbits] at ha hfits
    omega
  · refine ⟨rfl, rfl, rfl, rfl, rfl, rfl, rfl, rfl, rfl, rfl, rfl, rfl, ?_, fun _ => ⟨rfl, rfl, rfl, rfl, rfl⟩⟩
    simp

/-- Settles O47: in each of DECODE's three endings every field outside its output is the old one, and the bytes of
OUT past the symbols are not touched. -/
theorem decodeFrame : Obligations.DecodeFrame := by
  intro s
  refine ⟨decodeEffect Config.platform s, exec_eq .decode s, ?_⟩
  rcases decodeEffect_cases Config.platform s with
    ⟨h0, heq⟩ | ⟨out, -, -, -, hread, -, -, heq⟩ | ⟨kind, value, -, heq⟩ <;> rw [heq]
  · refine ⟨rfl, rfl, rfl, rfl, rfl, rfl, rfl, rfl, rfl, rfl, rfl, rfl, rfl, ?_, nofun⟩
    exact fun _ => ⟨rfl, rfl, rfl, rfl, h0.symm, fun _ _ => rfl⟩
  · refine ⟨rfl, rfl, rfl, rfl, rfl, rfl, rfl, rfl, rfl, rfl, rfl, rfl, rfl, ?_, nofun⟩
    exact fun _ => ⟨rfl, rfl, rfl, rfl, rfl, hread⟩
  · refine ⟨rfl, rfl, rfl, rfl, rfl, rfl, rfl, rfl, rfl, rfl, rfl, rfl, rfl, ?_, fun _ => ⟨rfl, rfl, rfl, rfl⟩⟩
    simp

end Sys2Proof.Machine
end

section
/-! PROOFS. Reset, the register map of an idle block, STATUS and ERR_INFO. -/

namespace Sys2Proof.Machine

/-- Word 0 of a NODE entry in the register window (20_memory R65). -/
theorem regLoc_nodeWord0 {i : Nat} (hi : i < 511) : regLoc (0x2000 + 16 * i) = .nodeWord (2 * i) := by
  rw [← regLoc_node (by omega), ← Nat.mul_assoc]

/-- Word 1 of a NODE entry in the register window (20_memory R65). -/
theorem regLoc_nodeWord1 {i : Nat} (hi : i < 511) : regLoc (0x2008 + 16 * i) = .nodeWord (2 * i + 1) := by
  rw [← regLoc_node (by omega)]
  congr 1
  omega

/-- Settles O1, field by field. -/
theorem resetIsIdleWithRegistersZero : Obligations.ResetIsIdleWithRegistersZero := by
  refine ⟨⟨rfl, rfl, rfl, rfl, rfl, rfl, rfl, rfl, rfl⟩, ?_, nofun, fun _ => ⟨rfl, rfl, rfl, rfl, rfl⟩⟩
  intro v entries h
  cases h
  rfl

/-- Settles O16: each row of the register map names its location, and an idle block answers that location's value. -/
theorem registerMapReads : Obligations.RegisterMapReads := by
  intro s off v e rest hs hh hrow
  have answers : off % 8 = 0 → off < 0x4000 → s.readLoc (regLoc off) = v →
      step s = .next { s with host := rest, lastRead := some v } := by
    rintro h8 ho rfl
    exact step_read_reg hs hh h8 ho
  have reserved : (0x0040 ≤ off ∧ off < 0x0800) ∨ (0x1000 ≤ off ∧ off < 0x2000) ∨ 0x3FF0 ≤ off →
      s.readLoc (regLoc off) = 0#64 := by
    intro h
    rw [regLoc_reserved h]
    rfl
  rcases hrow with ⟨rfl, rfl⟩ | ⟨rfl, rfl⟩ | ⟨rfl, rfl⟩ | ⟨rfl, rfl⟩ | ⟨rfl, rfl⟩ | ⟨rfl, rfl⟩ | ⟨rfl, rfl⟩ |
    ⟨rfl, rfl⟩ | ⟨k, rfl, hlo, hhi, rfl⟩ | ⟨b, hb, rfl, rfl⟩ | ⟨k, rfl, hlo, hhi, rfl⟩ | ⟨i, hi, rfl, rfl⟩ |
    ⟨i, hi, rfl, rfl⟩ | ⟨rfl, rfl⟩ | ⟨rfl, rfl⟩
  iterate 8 · exact answers (by omega) (by omega) rfl
  · exact answers (by omega) (by omega) (reserved (.inl (by omega)))
  · exact answers (by omega) (by omega) (by rw [regLoc_freq hb]; rfl)
  · exact answers (by omega) (by omega) (reserved (.inr (.inl (by omega))))
  · exact answers (by omega) (by omega) (by rw [regLoc_nodeWord0 hi]; rfl)
  · exact answers (by omega) (by omega) (by rw [regLoc_nodeWord1 hi]; rfl)
  iterate 2 · exact answers (by omega) (by omega) (reserved (.inr (.inr (by omega))))

/-- Settles O17: an idle block writes the location the register map names, one clause for each kind of location. -/
theorem registerMapWrites : Obligations.RegisterMapWrites := by
  intro s off v e rest hs hh h8 hlo hhi
  refine ⟨_, step_write_reg hs hh h8 (by omega) (by omega), ?_, ?_, ?_, ?_, ?_, ?_, ?_, ?_, ?_⟩
  case refine_2 =>
    rintro rfl
    rw [← BitVec.setWidth_eq_extractLsb' (by omega)]
    rfl
  case refine_6 =>
    rintro (rfl | rfl | h | h | h)
    · rfl
    · rfl
    · rw [regLoc_reserved (.inl (by omega))]; rfl
    · rw [regLoc_reserved (.inr (.inl (by omega)))]; rfl
    · rw [regLoc_reserved (.inr (.inr h))]; rfl
  case refine_7 =>
    rintro b hb rfl
    rw [regLoc_freq hb]
    exact ⟨rfl, fun u => read_write _ _ _ _⟩
  case refine_8 =>
    rintro i hi rfl
    rw [regLoc_nodeWord0 hi]
    exact ⟨rfl, fun u => read_write _ _ _ _⟩
  case refine_9 =>
    rintro i hi rfl
    rw [regLoc_nodeWord1 hi]
    exact ⟨rfl, fun u => read_write _ _ _ _⟩
  all_goals (rintro rfl; rfl)

/-- The fields of STATUS, each found past the narrower ones below it (10_state R29). -/
theorem status_fields (s : State) : s.status.getLsbD 0 = s.seq.isBusy ∧ s.status.getLsbD 1 = s.fault ∧
    s.status.extractLsb' 2 6 = 0#6 ∧ s.status.extractLsb' 8 8 = s.result.code ∧
    s.status.extractLsb' 16 48 = 0#48 := by
  have past := @BitVec.extractLsb'_append_eq_of_le
  unfold State.status
  refine ⟨?_, ?_, ?_, ?_, ?_⟩
  · simp only [BitVec.getLsbD_append, BitVec.getLsbD_ofBool]
    simp
  · simp only [BitVec.getLsbD_append, BitVec.getLsbD_ofBool]
    simp
  · exact (past (by decide)).trans ((past (by decide)).trans BitVec.extractLsb'_append_eq_right)
  · exact (past (by decide)).trans ((past (by decide)).trans ((past (by decide)).trans
      BitVec.extractLsb'_append_eq_right))
  · exact (past (by decide)).trans ((past (by decide)).trans ((past (by decide)).trans
      BitVec.extractLsb'_append_eq_left))

/-- The fields of ERR_INFO (10_state R30, 60_exceptions R212). -/
theorem errInfoOf_fields (k : FaultKind) {v : Nat} (hv : v < 2 ^ 60) :
    (errInfoOf k v).extractLsb' 60 4 = k.code ∧ ((errInfoOf k v).extractLsb' 0 60).toNat = v := by
  unfold errInfoOf
  refine ⟨?_, ?_⟩
  · exact BitVec.extractLsb'_append_eq_left
  · rw [BitVec.extractLsb'_append_eq_right, BitVec.toNat_ofNat, Nat.mod_eq_of_lt hv]

/-- The codes of RESULT from 0x02 on are all but OK and EMPTY_INPUT (60_exceptions R210). -/
theorem isFault_iff (r : ResultCode) : r.isFault = true ↔ r ≠ .ok ∧ r ≠ .emptyInput := by
  cases r <;> decide

/-- Settles O6: the fields of the two registers, then the code tables as they are defined. -/
theorem statusAndErrInfoFields : Obligations.StatusAndErrInfoFields :=
  ⟨status_fields, fun k _ hv => errInfoOf_fields k hv, ⟨rfl, rfl, rfl, rfl, rfl, rfl, rfl⟩, isFault_iff,
    ⟨rfl, rfl, rfl, rfl, rfl, rfl, rfl, rfl, rfl, rfl, rfl⟩, ⟨rfl, rfl, rfl, rfl, rfl, rfl, rfl, rfl, rfl, rfl, rfl⟩⟩

end Sys2Proof.Machine
end

section
/-! PROOFS. Host accesses (20_memory): what the bus makes of an address and a width, what an access the block takes
does to an idle and to a busy block, and that only an access it does not take stops a run. -/

namespace Sys2Proof.Machine

/-! ### The address map -/

/-- Two different windows share no address, whichever comes first in 00_scope R8's list. -/
theorem valid_disjoint {p : Params} (hp : p.valid) {v w : Window} (hvw : v ≠ w) : p.disjoint v w := by
  obtain ⟨-, -, hregPay, hregBit, hregOut, hpayBit, hpayOut, hbitOut⟩ := hp
  cases v <;> cases w
  case reg.reg | pay.pay | bitbuf.bitbuf | out.out => exact absurd rfl hvw
  all_goals omega

/-- A window's base plus an offset inside it lies in that window and in no other. -/
theorem inWindow_base_add {p : Params} (hp : p.valid) {win : Window} {off : Nat} (h : off < p.windowSize win)
    (v : Window) : inWindow p (p.windowBase win + off) v = decide (v = win) := by
  rw [inWindow, ← Bool.decide_and, decide_eq_decide]
  by_cases hv : v = win
  · subst hv
    exact iff_of_true (by omega) rfl
  · have hdisj := valid_disjoint hp hv
    exact iff_of_false (by omega) hv

theorem locateAbs_base_add {p : Params} (hp : p.valid) {win : Window} {off : Nat} (h : off < p.windowSize win) :
    locateAbs p (p.windowBase win + off) = some (win, off) := by
  cases win <;> simp [locateAbs, inWindow_base_add hp h]

theorem locate_at {p : Params} {win : Window} {off : Nat} (h : off < p.windowSize win) :
    locate p (.at win off) = some (win, off) :=
  if_pos h

/-! A multiple of 8 in a buffer window names a word of that buffer (20_memory R61). -/

@[simp] theorem locAt_pay (n : Nat) : locAt .pay (8 * n) = .payWord n := by simp [locAt]

@[simp] theorem locAt_bitbuf (n : Nat) : locAt .bitbuf (8 * n) = .bitbufWord n := by simp [locAt]

@[simp] theorem locAt_out (n : Nat) : locAt .out (8 * n) = .outWord n := by simp [locAt]

/-! ### What the block makes of an access -/

theorem busTarget_outside {p : Params} {a : BusAddr} (bytes : Nat) (h : locate p a = none) :
    busTarget p a bytes = .outside := by
  simp only [busTarget, h]

theorem accessWellFormed_iff (off bytes : Nat) : Access.wellFormed off bytes = true ↔ bytes = 8 ∧ off % 8 = 0 := by
  simp only [Access.wellFormed, Bool.and_eq_true, beq_iff_eq]

theorem busTarget_refused {p : Params} {a : BusAddr} {bytes off : Nat} {win : Window}
    (h : locate p a = some (win, off)) (hbad : bytes ≠ 8 ∨ off % 8 ≠ 0) : busTarget p a bytes = .refused := by
  have hwf : ¬ Access.wellFormed off bytes = true := by rw [accessWellFormed_iff]; omega
  simp only [busTarget, h, if_neg hwf]

/-- A 64-bit access to word `n` of a window, the word lying inside it (20_memory R66). -/
theorem busTarget_word {p : Params} {win : Window} {n : Nat} (h : 8 * n + 8 ≤ p.windowSize win) :
    busTarget p (.at win (8 * n)) 8 = .loc (locAt win (8 * n)) := by
  have hwf : Access.wellFormed (8 * n) 8 = true := (accessWellFormed_iff _ _).2 ⟨rfl, by omega⟩
  simp only [busTarget, locate_at (show 8 * n < p.windowSize win by omega), if_pos hwf]

/-- The act is a read or a write of this address and width. -/
def HostAct.accesses (act : HostAct) (a : BusAddr) (bytes : Nat) : Prop :=
  act = .read a bytes ∨ ∃ v, act = .write a bytes v

theorem perform_outside {p : Params} (s : State) {act : HostAct} {a : BusAddr} {bytes : Nat}
    (hact : act.accesses a bytes) (h : busTarget p a bytes = .outside) :
    perform p s act = .fault .outsideWindows := by
  rcases hact with rfl | ⟨v, rfl⟩ <;> simp only [perform, h]

theorem perform_refused {p : Params} (s : State) {act : HostAct} {a : BusAddr} {bytes : Nat}
    (hact : act.accesses a bytes) (h : busTarget p a bytes = .refused) :
    perform p s act = .refused .busError := by
  rcases hact with rfl | ⟨v, rfl⟩ <;> simp only [perform, h]

theorem perform_read {p : Params} (s : State) {a : BusAddr} {bytes : Nat} {l : Loc}
    (h : busTarget p a bytes = .loc l) : perform p s (.read a bytes) = .next (s.hostRead l) := by
  simp only [perform, h]

theorem perform_write {p : Params} (s : State) {a : BusAddr} {bytes : Nat} {l : Loc} (v : Word)
    (h : busTarget p a bytes = .loc l) : perform p s (.write a bytes v) = hostWrite s l v := by
  simp only [perform, h]

/-! ### Reads and writes of an idle and of a busy block -/

theorem hostRead_idle {s : State} (hs : s.seq = .idle) (l : Loc) :
    s.hostRead l = { s with lastRead := some (s.readLoc l) } := by
  simp [State.hostRead, isBusy_eq_false.2 hs]

theorem hostRead_busy {s : State} {i : Instr} (hs : s.seq = .busy i) (l : Loc) :
    s.hostRead l = if l = .status then { s with lastRead := some s.status }
      else { s with lastRead := some (Config.freeBits 64 s.draw 0), draw := s.draw + 1 } := by
  by_cases hl : l = .status
  · simp [State.hostRead, hl, State.readLoc]
  · simp [State.hostRead, hl, hs, Seq.isBusy]

theorem hostWrite_idle {s : State} (hs : s.seq = .idle) {l : Loc} (hl : l ≠ .cmd) (v : Word) :
    hostWrite s l v = .next (s.writeLoc l v) := by
  cases l with
  | cmd => exact absurd rfl hl
  | _ => simp [hostWrite, isBusy_eq_false.2 hs]

theorem hostWrite_busy {s : State} {i : Instr} (hs : s.seq = .busy i) (l : Loc) (v : Word) :
    hostWrite s l v = .next s := by
  simp [hostWrite, hs, Seq.isBusy]

section Accesses
variable {s : State} {a : BusAddr} {l : Loc} {e : Bool} {rest : List HostEvent}

/-- A 64-bit read of an idle block answers the location's value and changes nothing else (20_memory R69). -/
theorem step_read_idle (hs : s.seq = .idle) (hh : s.host = { early := e, act := .read a 8 } :: rest)
    (ht : busTarget Config.platform a 8 = .loc l) :
    step s = .next { s with host := rest, lastRead := some (s.readLoc l) } := by
  rw [step_perform hh (.inl hs), perform_read _ ht, hostRead_idle (s := { s with host := rest }) hs, readLoc_host]

/-- A 64-bit write of an idle block, to another location than CMD. -/
theorem step_write_idle {v : Word} (hs : s.seq = .idle) (hh : s.host = { early := e, act := .write a 8 v } :: rest)
    (ht : busTarget Config.platform a 8 = .loc l) (hl : l ≠ .cmd) :
    step s = .next (({ s with host := rest } : State).writeLoc l v) := by
  rw [step_perform hh (.inl hs), perform_write _ v ht]
  exact hostWrite_idle (s := { s with host := rest }) hs hl v

end Accesses

/-- A read of a buffer word answers eight bytes in its lanes, wherever those bytes are kept (20_memory R61). -/
theorem step_read_buffer {s : State} {win : Window} {n : Nat} {e : Bool} {rest : List HostEvent} {m : Memory 8}
    (hs : s.seq = .idle) (hh : s.host = { early := e, act := .read (.at win (8 * n)) 8 } :: rest)
    (hn : 8 * n + 8 ≤ Config.platform.windowSize win)
    (hm : s.readLoc (locAt win (8 * n)) = readLanes m n) :
    ∃ x : Word, step s = .next { s with host := rest, lastRead := some x } ∧
      ∀ k < 8, x.extractLsb' (8 * k) 8 = m.read (8 * n + k) :=
  ⟨readLanes m n, hm ▸ step_read_idle hs hh (busTarget_word hn), lane_readLanes m n⟩

/-! ### A step that answers a next state -/

theorem presentCommand_next (s : State) (w : Word) : ∃ t, presentCommand s w = .next t := by
  unfold presentCommand
  split
  · exact ⟨_, rfl⟩
  · split
    · exact ⟨_, rfl⟩
    · exact ⟨_, exec_eq _ _⟩

theorem hostWrite_next (s : State) (l : Loc) (v : Word) : ∃ t, hostWrite s l v = .next t := by
  cases hs : s.seq with
  | busy i => exact ⟨s, hostWrite_busy hs l v⟩
  | idle =>
    by_cases hl : l = .cmd
    · subst hl
      obtain ⟨t, ht⟩ := presentCommand_next s v
      exact ⟨t, by simpa [hostWrite, isBusy_eq_false.2 hs] using ht⟩
    · exact ⟨_, hostWrite_idle hs hl v⟩

/-- An act the block takes is performed to its end. -/
theorem perform_taken {p : Params} (s : State) {act : HostAct} (h : act.taken p) : ∃ t, perform p s act = .next t := by
  cases act with
  | reset => exact ⟨s.platformReset, rfl⟩
  | read a bytes =>
    obtain ⟨l, hl⟩ := h
    exact ⟨_, perform_read s hl⟩
  | write a bytes v =>
    obtain ⟨l, hl⟩ := h
    rw [perform_write s v hl]
    exact hostWrite_next s l v

/-- A running command ends in this step unless the outside's next act lands before its end (30_encoding R90). -/
theorem step_exec {s : State} {i : Instr} (hs : s.seq = .busy i) (he : nextIsEarly s.host = false) :
    step s = exec i s := by
  simp [step, advance, hs, he]

/-- An idle block that the outside leaves alone (60_exceptions R227). -/
theorem step_quiescent {s : State} (hs : s.seq = .idle) (hh : s.host = []) : step s = .next s := by
  simp [step, advance, performNext, hs, hh]

/-! ### The obligations -/

/-- Settles O12: with nothing landing now the step is a command's end or no change, and an act that lands is one the
block takes. -/
theorem onlyAnUntakenAccessStops : Obligations.OnlyAnUntakenAccessStops := by
  intro s htaken
  have lands : ∀ {e rest}, s.host = e :: rest → (s.seq = .idle ∨ e.early = true) → s.goesOn := by
    intro e rest hh hnow
    obtain ⟨t, ht⟩ := perform_taken { s with host := rest } (htaken e (by rw [hh]; rfl))
    exact ⟨t, (step_perform hh hnow).trans ht⟩
  cases hs : s.seq with
  | idle =>
    cases hh : s.host with
    | nil => exact ⟨s, step_quiescent hs hh⟩
    | cons e rest => exact lands hh (.inl hs)
  | busy i =>
    by_cases he : nextIsEarly s.host = true
    · cases hh : s.host with
      | nil => simp [hh, nextIsEarly] at he
      | cons e rest => exact lands hh (.inr (by simpa [hh, nextIsEarly] using he))
    · exact ⟨_, (step_exec hs (Bool.eq_false_iff.2 he)).trans (exec_eq i s)⟩

/-- Settles O15: the write or the read is performed on a busy block, and BUSY is a view of SEQ. -/
theorem accessesWhileBusy : Obligations.AccessesWhileBusy := by
  intro s a l i rest hs ht
  refine ⟨?_, ?_, ?_⟩
  · intro v hh
    rw [step_perform hh (.inr rfl), perform_write _ v ht]
    exact hostWrite_busy (s := { s with host := rest }) hs l v
  · intro hh
    rw [step_perform hh (.inr rfl), perform_read _ ht, hostRead_busy (s := { s with host := rest }) hs]
    split <;> rfl
  · obtain ⟨hbusy, -⟩ := status_fields s
    rw [hbusy, hs]
    rfl

/-- Settles O18: a word of each buffer window names that buffer's eight bytes, which the write replaces and the read
answers lane by lane. -/
theorem bufferWordsAreLittleEndianLanes : Obligations.BufferWordsAreLittleEndianLanes := by
  intro s v e rest n hs
  refine ⟨?payWrite, ?bitbufWrite, ?outWrite, ?payRead, ?bitbufRead, ?outRead⟩
  case payWrite | bitbufWrite | outWrite =>
    intro hn hh
    refine ⟨_, step_write_idle hs hh (busTarget_word hn) nofun, rfl, ?_⟩
    simp [State.writeLoc, read_writeLanes]
  case payRead | bitbufRead | outRead =>
    intro hn hh
    exact step_read_buffer hs hh hn (by simp [State.readLoc])

/-- Settles O19: no other window holds the address, so its own is the one found. -/
theorem platformAddressesNameTheirWindow : Obligations.PlatformAddressesNameTheirWindow :=
  fun _ _ _ hp h => ⟨locateAbs_base_add hp h, locate_at h⟩

/-- Settles O20: the act is performed now, and its target is `outside` or `refused`. -/
theorem untakenAccessesAreRefused : Obligations.UntakenAccessesAreRefused := by
  intro s a bytes v e rest hh hnow hact
  have hacc : e.act.accesses a bytes := hact.imp_right fun h => ⟨v, h⟩
  rw [step_perform hh hnow]
  exact ⟨fun hnone => perform_outside _ hacc (busTarget_outside bytes hnone),
    fun win off hsome hbad => perform_refused _ hacc (busTarget_refused hsome hbad)⟩

end Sys2Proof.Machine
end

section
/-! PROOFS. The command word (30_encoding R90, R91, R96, R98): which words decode, and what the step makes of a word
written to CMD. -/

namespace Sys2Proof

/-- A word is its two fields. -/
theorem fields_append (w : Word) : reservedField w ++ opcodeField w = w :=
  BitVec.extractLsb'_append_extractLsb'

/-- What decodes has its reserved bits 0 and the command's opcode (30_encoding R91). -/
theorem fields_of_decode {w : Word} {i : Instr} (h : decode w = .ok i) :
    reservedField w = 0#56 ∧ opcodeField w = opcodeOf i := by
  unfold decode at h
  split_ifs at h <;> cases h <;> exact ⟨not_not.1 ‹_›, ‹_›⟩

theorem eq_encode_of_fields {w : Word} {i : Instr} (hres : reservedField w = 0#56)
    (hop : opcodeField w = opcodeOf i) : w = encode i := by
  rw [← fields_append w, hres, hop, encode]

theorem decode_encode (i : Instr) : decode (encode i) = .ok i := by
  cases i <;> rfl

/-- The decoder accepts the encoder's words and no others (30_encoding R98). -/
theorem decode_ok_iff (w : Word) (i : Instr) : decode w = .ok i ↔ w = encode i := by
  constructor
  · intro h
    obtain ⟨hres, hop⟩ := fields_of_decode h
    exact eq_encode_of_fields hres hop
  · rintro rfl
    exact decode_encode i

theorem wellFormed_iff_fields (w : Word) : CommandWord.wellFormed w = true ↔
    reservedField w = 0#56 ∧ (opcodeField w = 0x01#8 ∨ opcodeField w = 0x02#8 ∨ opcodeField w = 0x03#8) := by
  simp [CommandWord.wellFormed, CommandWord.reservedBitsZero, CommandWord.opcodeDefined, reservedField, opcodeField,
    or_assoc]

/-- The check of R96 is the decoder's. -/
theorem wellFormed_iff_decode (w : Word) : CommandWord.wellFormed w = true ↔ ∃ i, decode w = .ok i := by
  rw [wellFormed_iff_fields]
  constructor
  · rintro ⟨hres, hop | hop | hop⟩
    exacts [⟨.build, (decode_ok_iff w _).2 (eq_encode_of_fields hres hop)⟩,
      ⟨.encode, (decode_ok_iff w _).2 (eq_encode_of_fields hres hop)⟩,
      ⟨.decode, (decode_ok_iff w _).2 (eq_encode_of_fields hres hop)⟩]
  · rintro ⟨i, hi⟩
    obtain ⟨hres, hop⟩ := fields_of_decode hi
    refine ⟨hres, ?_⟩
    cases i
    exacts [.inl hop, .inr (.inl hop), .inr (.inr hop)]

/-- Settles O3: the decoder accepts exactly the encoder's words, which are 1, 2 and 3. -/
theorem commandWordsAreExactlyThree : Obligations.CommandWordsAreExactlyThree :=
  ⟨fun w => decode_ok_iff w .build, fun w => decode_ok_iff w .encode, fun w => decode_ok_iff w .decode,
    decode_ok_iff, wellFormed_iff_decode⟩

/-- Settles O4, word by word. -/
theorem specWordsDecode : Obligations.SpecWordsDecode :=
  ⟨rfl, rfl, rfl, rfl, rfl, rfl, rfl⟩

/-- Any other word is rejected (30_encoding R96). -/
theorem decode_error_of_ne {w : Word} (h1 : w ≠ 1#64) (h2 : w ≠ 2#64) (h3 : w ≠ 3#64) :
    ∃ r, decode w = .error r := by
  cases hd : decode w with
  | error r => exact ⟨r, rfl⟩
  | ok i =>
    have hw := (decode_ok_iff w i).1 hd
    cases i
    exacts [absurd hw h1, absurd hw h2, absurd hw h3]

namespace Machine

/-- A 64-bit write to CMD of an idle block presents the word (30_encoding R90). -/
theorem step_write_cmd {s : State} {a : BusAddr} {w : Word} {e : Bool} {rest : List HostEvent} (hs : s.seq = .idle)
    (hh : s.host = { early := e, act := .write a 8 w } :: rest)
    (ht : busTarget Config.platform a 8 = .loc .cmd) : step s = presentCommand { s with host := rest } w := by
  rw [step_perform hh (.inl hs), perform_write _ w ht]
  simp [hostWrite, isBusy_eq_false.2 hs]

theorem presentCommand_ok {s : State} {w : Word} {i : Instr} (h : decode w = .ok i) :
    presentCommand s w = if nextIsEarly s.host then .next (s.accept i) else exec i (s.accept i) := by
  simp only [presentCommand, h]

theorem presentCommand_error {s : State} {w : Word} {r : Reject} (h : decode w = .error r) :
    presentCommand s w = .next (s.rejectCommand w) := by
  simp only [presentCommand, h]

/-- On an idle block a rejected word changes RESULT, ERR_INFO and FAULT alone (30_encoding R96). -/
theorem rejectCommand_idle {s : State} (hs : s.seq = .idle) (hw : s.work = .dead) (w : Word) :
    s.rejectCommand w = { s with
      result := .illegalCommand, errInfo := errInfoOf .illegalWord (w.extractLsb' 0 60).toNat, fault := true } := by
  simp only [State.rejectCommand, State.raise, FaultKind.result, hs, hw]

/-- Settles O7: the write presents the word, and a word that decodes is accepted. -/
theorem stepRunsTheDecodedCommand : Obligations.StepRunsTheDecodedCommand := by
  intro s a w e rest i hs hh ht hd
  rw [step_write_cmd hs hh ht, presentCommand_ok hd]

/-- Settles O8, by the step of a running command that nothing interrupts. -/
theorem runningCommandEndsInOneStep : Obligations.RunningCommandEndsInOneStep :=
  fun _ _ hs he => step_exec hs he

/-- Settles O9: the write presents the word, which does not decode, and ERR_INFO's fields are kind 10 and the word's
low 60 bits. -/
theorem illegalWordIsRejected : Obligations.IllegalWordIsRejected := by
  intro s a w e rest hs hwork hh ht h1 h2 h3
  obtain ⟨r, hr⟩ := decode_error_of_ne h1 h2 h3
  have hreject := rejectCommand_idle (s := { s with host := rest }) hs ((workOk_idle hs).1 hwork) w
  obtain ⟨hkind, hvalue⟩ := errInfoOf_fields .illegalWord (w.extractLsb' 0 60).isLt
  refine ⟨_, (step_write_cmd hs hh ht).trans (presentCommand_error hr), hreject, hkind, ?_⟩
  exact BitVec.eq_of_toNat_eq hvalue

end Machine

end Sys2Proof
end

section
/-! PROOFS. The node record (30_encoding R92, R93): its fields as digits of word 0, and the words that pass RecordOK. -/

namespace Sys2Proof.Machine

/-! ### Each field is a range of digits of the word -/

theorem tagField_iff (w : Word) : tagField w = true ↔ w.toNat % 2 = 1 := by
  simp [tagField, BitVec.getLsbD, Nat.testBit_zero]

theorem byteField_toNat (w : Word) : (byteField w).toNat = w.toNat / 2 ^ 8 % 2 ^ 8 := by
  rw [byteField, BitVec.extractLsb'_toNat, Nat.shiftRight_eq_div_pow]

theorem leftField_eq (w : Word) : leftField w = w.toNat / 2 ^ 16 % 2 ^ 9 := by
  rw [leftField, BitVec.extractLsb'_toNat, Nat.shiftRight_eq_div_pow]

theorem rightField_eq (w : Word) : rightField w = w.toNat / 2 ^ 32 % 2 ^ 9 := by
  rw [rightField, BitVec.extractLsb'_toNat, Nat.shiftRight_eq_div_pow]

theorem nodeReservedZero_iff (w : Word) : nodeReservedZero w = true ↔
    w.toNat / 2 ^ 1 % 2 ^ 7 = 0 ∧ w.toNat / 2 ^ 25 % 2 ^ 7 = 0 ∧ w.toNat / 2 ^ 41 % 2 ^ 23 = 0 := by
  simp only [nodeReservedZero, Bool.and_eq_true, beq_iff_eq, and_assoc, ← BitVec.toNat_inj,
    BitVec.extractLsb'_toNat, Nat.shiftRight_eq_div_pow, BitVec.toNat_ofNat, Nat.zero_mod]

/-! ### RecordOK for each tag -/

theorem recordOk_iff_of_leaf {i : Nat} {w : Word} (ht : tagField w = false) :
    recordOk i w = true ↔ nodeReservedZero w = true ∧ leftField w = 0 ∧ rightField w = 0 := by
  simp [recordOk, ht]

theorem recordOk_iff_of_branch {i : Nat} {w : Word} (ht : tagField w = true) :
    recordOk i w = true ↔
      nodeReservedZero w = true ∧ byteField w = 0#8 ∧ leftField w < i ∧ rightField w < i := by
  simp [recordOk, ht, and_assoc]

/-! ### The leaf record -/

theorem word0_leaf (v : Byte) (f : Word) : (Node.leaf v f).word0 = BitVec.ofNat 64 (v.toNat * 2 ^ 8) := by
  apply BitVec.eq_of_toNat_eq
  simp [Node.word0, Nat.shiftLeft_eq]

theorem word0_leaf_toNat (v : Byte) (f : Word) : (Node.leaf v f).word0.toNat = v.toNat * 2 ^ 8 := by
  rw [word0_leaf, BitVec.toNat_ofNat]
  omega

theorem leftField_leaf (v : Byte) (f : Word) : leftField (Node.leaf v f).word0 = 0 := by
  rw [leftField_eq, word0_leaf_toNat]
  omega

theorem rightField_leaf (v : Byte) (f : Word) : rightField (Node.leaf v f).word0 = 0 := by
  rw [rightField_eq, word0_leaf_toNat]
  omega

theorem recordOk_leaf (i : Nat) (v : Byte) (f : Word) : recordOk i (Node.leaf v f).word0 = true := by
  rw [recordOk_iff_of_leaf (tagField_leaf v f), nodeReservedZero_iff, word0_leaf_toNat]
  exact ⟨by omega, leftField_leaf v f, rightField_leaf v f⟩

/-! ### The branch record -/

section Branch
variable {l r : Nat} (f : Word) (hl : l < 512) (hr : r < 512)
include hl hr

theorem word0_branch_toNat : (Node.branch l r f).word0.toNat = 1 + l * 2 ^ 16 + r * 2 ^ 32 := by
  rw [word0_branch f hl hr, BitVec.toNat_ofNat]
  omega

theorem byteField_branch : byteField (Node.branch l r f).word0 = 0#8 := by
  apply BitVec.eq_of_toNat_eq
  rw [byteField_toNat, word0_branch_toNat f hl hr, BitVec.toNat_ofNat]
  omega

theorem nodeReservedZero_branch : nodeReservedZero (Node.branch l r f).word0 = true := by
  rw [nodeReservedZero_iff, word0_branch_toNat f hl hr]
  omega

theorem recordOk_branch_iff (i : Nat) : recordOk i (Node.branch l r f).word0 = true ↔ l < i ∧ r < i := by
  rw [recordOk_iff_of_branch (tagField_branch l r f), leftField_branch f hl hr, rightField_branch f hl hr]
  simp [nodeReservedZero_branch f hl hr, byteField_branch f hl hr]

end Branch

/-! ### A word that passes is the word of the record its fields name -/

theorem word0_leaf_of_recordOk {i : Nat} {w : Word} (ht : tagField w = false) (h : recordOk i w = true) :
    (Node.leaf (byteField w) 0#64).word0 = w := by
  obtain ⟨hres, hleft, hright⟩ := (recordOk_iff_of_leaf ht).1 h
  rw [nodeReservedZero_iff] at hres
  rw [leftField_eq] at hleft
  rw [rightField_eq] at hright
  have htag : w.toNat % 2 = 0 := by
    have := (tagField_iff w).not.1 (by simp [ht])
    omega
  apply BitVec.eq_of_toNat_eq
  rw [word0_leaf_toNat, byteField_toNat]
  omega

theorem word0_branch_of_recordOk {i : Nat} {w : Word} (ht : tagField w = true) (h : recordOk i w = true) :
    (Node.branch (leftField w) (rightField w) 0#64).word0 = w := by
  obtain ⟨hres, hbyte, -, -⟩ := (recordOk_iff_of_branch ht).1 h
  rw [nodeReservedZero_iff] at hres
  rw [← BitVec.toNat_inj, byteField_toNat, BitVec.toNat_ofNat] at hbyte
  rw [tagField_iff] at ht
  have hl : leftField w < 512 := BitVec.isLt _
  have hr : rightField w < 512 := BitVec.isLt _
  apply BitVec.eq_of_toNat_eq
  rw [word0_branch_toNat _ hl hr, leftField_eq, rightField_eq]
  omega

/-- Settles O5: the digits of each record's word, and the record that the fields of a word passing RecordOK name. -/
theorem nodeRecordRoundTrip : Obligations.NodeRecordRoundTrip := by
  refine ⟨?leaf, ?branch, ?inverse⟩
  case leaf =>
    exact fun v f => ⟨word0_leaf v f, tagField_leaf v f, byteField_leaf v f, leftField_leaf v f, rightField_leaf v f,
      fun i => recordOk_leaf i v f⟩
  case branch =>
    exact fun l r f hl hr => ⟨word0_branch f hl hr, tagField_branch l r f, byteField_branch f hl hr,
      leftField_branch f hl hr, rightField_branch f hl hr, recordOk_branch_iff f hl hr⟩
  case inverse =>
    intro i w h
    cases ht : tagField w with
    | false => exact ⟨_, word0_leaf_of_recordOk ht h, nofun⟩
    | true =>
      refine ⟨_, word0_branch_of_recordOk ht h, ?_⟩
      rintro l r f ⟨⟩
      exact recordOk_children h ht

end Sys2Proof.Machine
end

section
/-! PROOFS. The stream a successful ENCODE writes (41_encode R150, R155, R156, R158). -/

namespace Sys2Proof.Machine

/-- The stream does not look at the cache. -/
@[simp] theorem payloadBits_clearCache (s : State) (n : Nat) : s.clearCache.payloadBits n = s.payloadBits n := by
  induction n with
  | zero => rfl
  | succ n ih => simp only [State.payloadBits, ih]; rfl

/-- One more payload byte appends its path. -/
theorem payloadBits_succ {s : State} {n : Nat} {bits : Path} :
    s.payloadBits (n + 1) = some bits ↔
      ∃ front q, s.payloadBits n = some front ∧ s.findRootPath (s.pay.read n) = some q ∧ front ++ q = bits := by
  rw [State.payloadBits]
  cases s.payloadBits n <;> cases s.findRootPath (s.pay.read n) <;> simp

/-- In a stream of `n` bytes every byte has a path, and what its path completes is the stream's beginning. -/
theorem payloadBits_of_lt {s : State} {n j : Nat} {bits : Path} (h : s.payloadBits n = some bits) (hj : j < n) :
    ∃ front q, s.payloadBits j = some front ∧ s.findRootPath (s.pay.read j) = some q ∧ front ++ q <+: bits := by
  induction n generalizing bits with
  | zero => exact absurd hj (Nat.not_lt_zero j)
  | succ n ih =>
    obtain ⟨front, q, hfront, hq, rfl⟩ := payloadBits_succ.1 h
    by_cases hjn : j = n
    · subst hjn
      exact ⟨front, q, hfront, hq, ⟨[], List.append_nil _⟩⟩
    · obtain ⟨front', q', hfront', hq', hpre⟩ := ih hfront (by omega)
      exact ⟨front', q', hfront', hq', hpre.trans ⟨q, rfl⟩⟩

/-- The loop raises nothing on a payload whose paths exist and fit together. -/
theorem encodeLoop_of_payloadBits {p : Params} {s : State} {n : Nat} {bits : Path}
    (hbits : s.payloadBits n = some bits) (hfit : bits.length ≤ 8 * p.bitbufMax) :
    ∃ r, encodeLoop p s n { work := EncodeWork.start, cc := [], bitbuf := s.bitbuf } = .ok r := by
  rcases encodeLoop_cases p s s.bitbuf n _ (encodeKeeps_start p s s.bitbuf) with
    ⟨r, hloop, -⟩ | ⟨j, front, -, hj, hfront, -, hfault⟩
  · exact ⟨r, hloop⟩
  · obtain ⟨front', q, hfront', hq, hpre⟩ := payloadBits_of_lt hbits (by simpa [EncodeWork.start] using hj)
    obtain rfl : front = front' := by simpa [hfront] using hfront'
    have hlen := hpre.length_le
    rw [List.length_append] at hlen
    rcases hfault with ⟨hnone, -⟩ | ⟨q', hq', hlong, -⟩
    · simp [hq] at hnone
    · obtain rfl : q = q' := by simpa [hq] using hq'
      omega

/-- An encode that passes both tests and whose paths exist and fit together ends well (41_encode R151, R152, R157,
R160). -/
theorem encodePayload_of_payloadBits {p : Params} {s : State} {bits : Path} (hlen : s.payLen.toNat ≤ p.payMax)
    (htree : treeCheck s = none) (hbits : s.payloadBits s.payLen.toNat = some bits)
    (hfit : bits.length ≤ 8 * p.bitbufMax) : ∃ r, encodePayload p s = .ok r := by
  obtain ⟨r, hloop⟩ := encodeLoop_of_payloadBits hbits hfit
  exact ⟨flushByte r, by simp only [encodePayload, if_neg (Nat.not_lt.2 hlen), htree, hloop]⟩

/-- On such a payload, when it is not empty, ENCODE packs the stream told without a cache (41_encode R155, R156). -/
theorem encodeEffect_of_payloadBits {p : Params} {s : State} {bits : Path} (hpos : s.payLen ≠ 0#64)
    (hlen : s.payLen.toNat ≤ p.payMax) (htree : treeCheck s = none)
    (hbits : s.payloadBits s.payLen.toNat = some bits) (hfit : bits.length ≤ 8 * p.bitbufMax) :
    ∃ r, EncodeKeeps p s.clearCache s.bitbuf r ∧ r.work.j = s.payLen.toNat ∧ Packed s.bitbuf bits r ∧
      encodeEffect p s = { s.clearCache with
        bitbuf := (flushByte r).bitbuf, bitCount := BitVec.ofNat 64 r.work.nbits, cc := .known r.cc }.finish .ok := by
  rcases encodeEffect_cases p s with ⟨hzero, -⟩ | ⟨r, -, -, hkeeps, hj, heq⟩ | ⟨kind, value, hraise, -⟩
  · exact absurd hzero hpos
  · obtain ⟨bits', hbits', hpacked⟩ := hkeeps.packed
    rw [hj, payloadBits_clearCache] at hbits'
    obtain rfl : bits = bits' := by simpa [hbits] using hbits'
    exact ⟨r, hkeeps, hj, hpacked, heq⟩
  · obtain ⟨r, hok⟩ := encodePayload_of_payloadBits (s := s.clearCache) hlen htree
      ((payloadBits_clearCache s _).trans hbits) hfit
    rw [hok] at hraise
    cases hraise

/-- Settles O42: the run packs the stream, and its flushed buffer holds the stream's bits, zeros up to the next whole
byte, and the old bytes above. -/
theorem encodeWritesTheStream : Obligations.EncodeWritesTheStream := by
  intro s bits hpos hlen htree hbits hfit
  obtain ⟨r, -, -, hpacked, heq⟩ := encodeEffect_of_payloadBits hpos hlen htree hbits hfit
  obtain ⟨-, hstream, habove⟩ := hpacked.flush
  obtain ⟨⟨-, ⟨-, -, hmax⟩, -⟩, -⟩ := platform_valid
  refine ⟨_, (exec_eq .encode s).trans (congrArg _ heq), rfl, rfl, rfl, ?_, ?_, ?_, habove⟩
  · rw [finish_bitCount, hpacked.nbits, BitVec.toNat_ofNat, Nat.mod_eq_of_lt (by omega)]
  · intro i hi
    rw [finish_bitbuf, hstream i (by omega), List.getD_eq_getElem _ _ hi]
  · intro i hi hpad
    rw [finish_bitbuf, hstream i hpad, List.getD_eq_default _ _ hi]

end Sys2Proof.Machine
end

section
/-! PROOFS. How a BUILD ends: the frequency table and its leaves (40_build R120), what BUILD's state is for each
result of the tree's construction, and when each occurs (R121, R126, R127, R129). -/

namespace Sys2Proof.Machine

/-! ### The frequency table -/

theorem freqTable_getElem? (s : State) {v : Nat} (hv : v < 256) : s.freqTable[v]? = some (s.freq.read v) := by
  simp [State.freqTable, hv]

theorem freqTable_congr {s₁ s₂ : State} (h : ∀ v < 256, s₁.freq.read v = s₂.freq.read v) :
    s₁.freqTable = s₂.freqTable :=
  List.map_congr_left fun v hv => h v (List.mem_range.1 hv)

theorem toNat_ofNat_byte {v : Nat} (hv : v < 256) : (BitVec.ofNat 8 v).toNat = v := by
  rw [BitVec.toNat_ofNat, Nat.mod_eq_of_lt hv]

@[simp] theorem freqTable_clearCache (s : State) : s.clearCache.freqTable = s.freqTable := rfl

/-- The sorted leaves are the non-zero entries of FREQ with their byte values (40_build R120, R123). -/
theorem mem_sortedLeaves (s : State) (b : Byte) (f : Word) :
    (b, f) ∈ sortLeaves (nonzeroLeaves s.freqTable) ↔ s.freq.read b.toNat = f ∧ f ≠ 0#64 := by
  rw [(sortLeaves_perm _).mem_iff, mem_nonzeroLeaves (length_freqTable s).le, freqTable_getElem? s b.isLt,
    Option.some.injEq]

theorem leafCount_eq_zero {s : State} (h : ∀ v < 256, s.freq.read v = 0#64) : s.leafCount = 0 := by
  simpa [State.leafCount, State.freqTable, List.length_eq_zero_iff] using h

/-- A table with one non-zero entry has that one leaf (40_build R122). -/
theorem leafNodes_singleton {s : State} {v : Nat} {f : Word} (hv : v < 256) (hf : f ≠ 0#64)
    (hread : s.freq.read v = f) (hzero : ∀ u < 256, u ≠ v → s.freq.read u = 0#64) :
    leafNodes s.freqTable = [.leaf (BitVec.ofNat 8 v) f] := by
  have hbyte : (BitVec.ofNat 8 v).toNat = v := toNat_ofNat_byte hv
  have hmem : ∀ x, x ∈ sortLeaves (nonzeroLeaves s.freqTable) ↔ x ∈ [(BitVec.ofNat 8 v, f)] := by
    rintro ⟨b, g⟩
    rw [mem_sortedLeaves, List.mem_singleton, Prod.mk.injEq]
    constructor
    · rintro ⟨rfl, hg⟩
      obtain rfl : b.toNat = v := by
        by_contra hne
        exact hg (hzero _ b.isLt hne)
      exact ⟨by simp, hread⟩
    · rintro ⟨rfl, rfl⟩
      exact ⟨by rw [hbyte, hread], hf⟩
  have hnodup := (sortLeaves_perm _).nodup_iff.2 (nodup_nonzeroLeaves (length_freqTable s).le)
  have hsorted := List.perm_singleton.1 ((List.perm_ext_iff_of_nodup hnodup (List.nodup_singleton _)).2 hmem)
  rw [leafNodes, hsorted]
  rfl

/-! ### The state at the end, for each result of the construction -/

/-- The state a BUILD ends in that writes the tree `nodes` (40_build R127). -/
def State.withTree (s : State) (nodes : List Node) : State :=
  { s.clearCache with node := writeNodes s.node nodes, nodeCount := BitVec.ofNat 10 nodes.length }.finish .ok

@[simp] theorem withTree_node (s : State) (nodes : List Node) : (s.withTree nodes).node = writeNodes s.node nodes := rfl

@[simp] theorem withTree_nodeCount (s : State) (nodes : List Node) :
    (s.withTree nodes).nodeCount = BitVec.ofNat 10 nodes.length := rfl

theorem buildEffect_of_nil {s : State} (h : buildTree true s.freqTable = .ok []) :
    buildEffect true s = { s.clearCache with nodeCount := 0#10 }.finish .emptyInput := by
  simp only [buildEffect, freqTable_clearCache, h]

theorem buildEffect_of_tree {s : State} {nodes : List Node} (h : buildTree true s.freqTable = .ok nodes)
    (hne : nodes ≠ []) : buildEffect true s = s.withTree nodes := by
  cases nodes with
  | nil => exact absurd rfl hne
  | cons n rest =>
    simp only [buildEffect, freqTable_clearCache, h]
    rfl

theorem buildEffect_of_error {s : State} {kind : FaultKind} {value : Nat}
    (h : buildTree true s.freqTable = .error (kind, value)) :
    buildEffect true s = s.clearCache.discardTree.raise kind value := by
  simp only [buildEffect, freqTable_clearCache, h]

/-! ### Which of them occurs -/

/-- `nodes` is the array of a merge of all the leaves of FREQ that has made its `L - 1` branches
(40_build R120, R127). -/
structure MergeDone (s : State) (nodes : List Node) (w : BuildWork) : Prop where
  pos : 1 ≤ s.leafCount
  merging : Merging true (leafNodes s.freqTable) nodes w
  steps : w.k = s.leafCount - 1

theorem MergeDone.finished {s : State} {nodes : List Node} {w : BuildWork} (h : MergeDone s nodes w) :
    w.leaves = s.leafCount ∧ nodes.length = 2 * s.leafCount - 1 ∧ w.nf = 2 * s.leafCount - 1 ∧
      (∀ j, w.used j ↔ j < 2 * s.leafCount - 2) ∧ fr nodes (2 * s.leafCount - 2) = s.freqTotal := by
  have := h.merging.finished (by rw [leafCount_eq]; exact h.pos) (by rw [leafCount_eq]; exact h.steps)
  rwa [sum_leafNodes, leafCount_eq] at this

/-- The three ends of a BUILD, each with the tables that lead to it: the empty input, a tree, and the overflow at the
first merge step whose sum does not fit (40_build R121, R126, R127, R129). -/
theorem exec_build_cases (s : State) :
    (s.leafCount = 0 ∧ exec .build s = .next ({ s.clearCache with nodeCount := 0#10 }.finish .emptyInput)) ∨
    (s.freqTotal < 2 ^ 64 ∧ ∃ nodes w, MergeDone s nodes w ∧ exec .build s = .next (s.withTree nodes)) ∨
    (2 ≤ s.leafCount ∧ 2 ^ 64 ≤ s.freqTotal ∧ ∃ nf, s.leafCount ≤ nf ∧ nf < 2 * s.leafCount - 1 ∧
      MergeOverflowsAt true (leafNodes s.freqTable) (BuildWork.start s.leafCount) nf ∧
      exec .build s = .next (s.clearCache.discardTree.raise .frequencySum nf)) := by
  simp only [exec_eq]
  rcases buildTree_cases true (length_freqTable s).le with
    ⟨hnil, hb⟩ | ⟨hpos, htotal, nodes, w, hb, hm, hk⟩ | ⟨hlen, htotal, nf, hlo, hhi, hb, hover⟩
  · exact .inl ⟨by rw [← leafCount_eq, hnil, List.length_nil], congrArg _ (buildEffect_of_nil hb)⟩
  · rw [leafCount_eq] at hpos hk
    have hdone : MergeDone s nodes w := ⟨hpos, hm, hk⟩
    obtain ⟨-, hn, -⟩ := hdone.finished
    have hne : nodes ≠ [] := List.length_pos_iff.1 (by omega)
    exact .inr (.inl ⟨htotal, nodes, w, hdone, congrArg _ (buildEffect_of_tree hb hne)⟩)
  · rw [leafCount_eq] at hlen hlo hhi hover
    exact .inr (.inr ⟨hlen, htotal, nf, hlo, hhi, hover, congrArg _ (buildEffect_of_error hb)⟩)

/-- On a buildable table BUILD makes a tree. -/
theorem exec_build_of_buildable {s : State} (h : s.buildable) :
    ∃ nodes w, MergeDone s nodes w ∧ exec .build s = .next (s.withTree nodes) := by
  obtain ⟨hpos, hfit⟩ := h
  rcases exec_build_cases s with ⟨hzero, -⟩ | ⟨-, htree⟩ | ⟨hlen, htotal, -⟩
  · omega
  · exact htree
  · omega

end Sys2Proof.Machine
end

section
/-! PROOFS. What stands in NODE after a finished merge: its leaves, its branches, their order, and the depth of the
tree (40_build R123, R125, R128, R130). -/

namespace Sys2Proof.Machine

theorem leafBefore_iff (x y : Byte × Word) :
    leafBefore x y = true ↔ x.2.toNat < y.2.toNat ∨ (x.2 = y.2 ∧ x.1.toNat < y.1.toNat) := by
  simp [leafBefore]

theorem fr_eq_freq {nodes : List Node} {i : Nat} {n : Node} (h : nodes[i]? = some n) : fr nodes i = n.freq.toNat := by
  simp [fr, freqAt, h]

theorem nodeWord0_of_getElem? (m : Memory 64) {nodes : List Node} {i : Nat} {n : Node} (h : nodes[i]? = some n) :
    nodeWord0 (writeNodes m nodes) i = n.word0 := by
  obtain ⟨hi, rfl⟩ := List.getElem?_eq_some_iff.1 h
  exact nodeWord0_writeNodes m nodes i hi

theorem nodeFreq_of_getElem? (m : Memory 64) {nodes : List Node} {i : Nat} {n : Node} (h : nodes[i]? = some n) :
    nodeFreq (writeNodes m nodes) i = n.freq := by
  obtain ⟨hi, rfl⟩ := List.getElem?_eq_some_iff.1 h
  exact nodeFreq_writeNodes m nodes i hi

theorem nodeFreq_toNat (m : Memory 64) {nodes : List Node} {i : Nat} (h : i < nodes.length) :
    (nodeFreq (writeNodes m nodes) i).toNat = fr nodes i := by
  have hi := List.getElem?_eq_getElem h
  rw [nodeFreq_of_getElem? m hi, fr_eq_freq hi]

/-- The words written do not depend on what NODE held. -/
theorem read_writeNodes_below (m m' : Memory 64) (nodes : List Node) {k : Nat} (h : k < 2 * nodes.length) :
    (writeNodes m nodes).read k = (writeNodes m' nodes).read k := by
  have hk : 0 ≤ k ∧ k < 0 + (nodeWords nodes).length := by simpa using h
  rw [writeNodes, writeNodes, read_writeList, read_writeList, dif_pos hk, dif_pos hk]

/-- What BUILD makes of entry `i` when it is a branch of a tree whose root is `root` (40_build R125, R128). -/
structure BranchAt (node : Memory 64) (root i : Nat) : Prop where
  tag : tagField (nodeWord0 node i) = true
  canonical : recordOk i (nodeWord0 node i) = true
  left_lt : leftField (nodeWord0 node i) < i
  right_lt : rightField (nodeWord0 node i) < i
  left_lt_root : leftField (nodeWord0 node i) < root
  right_lt_root : rightField (nodeWord0 node i) < root
  ne : leftField (nodeWord0 node i) ≠ rightField (nodeWord0 node i)
  sum : (nodeFreq node i).toNat = (nodeFreq node (leftField (nodeWord0 node i))).toNat +
    (nodeFreq node (rightField (nodeWord0 node i))).toNat
  le : (nodeFreq node (leftField (nodeWord0 node i))).toNat ≤ (nodeFreq node (rightField (nodeWord0 node i))).toNat

section Done
variable {s : State} {nodes : List Node} {w : BuildWork} (h : MergeDone s nodes w) (m : Memory 64)
include h

theorem MergeDone.length_eq : nodes.length = 2 * s.leafCount - 1 := by
  obtain ⟨-, hlen, -⟩ := h.finished
  exact hlen

theorem MergeDone.nodeCount_eq : (s.withTree nodes).nodeCount.toNat = 2 * s.leafCount - 1 := by
  have hlen := h.length_eq
  have hcount := leafCount_le s
  rw [withTree_nodeCount, BitVec.toNat_ofNat]
  omega

theorem MergeDone.root_eq : (s.withTree nodes).root = 2 * s.leafCount - 2 := by
  rw [State.root, h.nodeCount_eq]
  omega

/-- An entry below `L` is the sorted leaf of its index. -/
theorem MergeDone.leaf_getElem? {i : Nat} (hi : i < s.leafCount) :
    ∃ x, (sortLeaves (nonzeroLeaves s.freqTable))[i]? = some x ∧ nodes[i]? = some (.leaf x.1 x.2) := by
  rw [← leafCount_eq] at hi
  obtain ⟨x, hx, hleaf, -⟩ := fr_leafNodes s.freqTable hi
  exact ⟨x, hx, (h.merging.starts i hi).trans hleaf⟩

/-- An entry from `L` on is a branch of two earlier entries other than the last, with the sum of their frequencies. -/
theorem MergeDone.branch_getElem? {i : Nat} (hi : s.leafCount ≤ i) (hin : i < 2 * s.leafCount - 1) :
    ∃ l r g, nodes[i]? = some (.branch l r g) ∧ l ≠ r ∧ l < i ∧ r < i ∧ l < 2 * s.leafCount - 2 ∧
      r < 2 * s.leafCount - 2 ∧ g.toNat = fr nodes l + fr nodes r ∧ fr nodes l ≤ fr nodes r := by
  obtain ⟨hleaves, -, hnf, hused, -⟩ := h.finished
  obtain ⟨l, r, g, hbranch, hne, hl, hr, hul, hur, hsum, hle⟩ := h.merging.branch i (by omega) (by omega)
  exact ⟨l, r, g, hbranch, hne, hl, hr, (hused l).1 hul, (hused r).1 hur, hsum, hle⟩

/-- The child fields of a branch written hold its children. -/
theorem MergeDone.children {i l r : Nat} {g : Word} (hi : s.leafCount ≤ i) (hin : i < 2 * s.leafCount - 1)
    (hb : nodes[i]? = some (.branch l r g)) :
    l < 512 ∧ r < 512 ∧ leftField (nodeWord0 (writeNodes m nodes) i) = l ∧
      rightField (nodeWord0 (writeNodes m nodes) i) = r := by
  obtain ⟨l', r', g', hb', -, hl, hr, -⟩ := h.branch_getElem? hi hin
  obtain ⟨rfl, rfl, rfl⟩ : l = l' ∧ r = r' ∧ g = g' := by simpa [hb] using hb'
  have hcount := leafCount_le s
  have hl512 : l < 512 := by omega
  have hr512 : r < 512 := by omega
  rw [nodeWord0_of_getElem? m hb]
  exact ⟨hl512, hr512, leftField_branch g hl512 hr512, rightField_branch g hl512 hr512⟩

theorem MergeDone.branch_words {i : Nat} (hi : s.leafCount ≤ i) (hin : i < 2 * s.leafCount - 1) :
    BranchAt (writeNodes m nodes) (2 * s.leafCount - 2) i := by
  obtain ⟨l, r, g, hb, hne, hl, hr, hlroot, hrroot, hsum, hle⟩ := h.branch_getElem? hi hin
  obtain ⟨hl512, hr512, hleft, hright⟩ := h.children m hi hin hb
  have hlen := h.length_eq
  rw [← nodeFreq_toNat m (show l < nodes.length by omega), ← nodeFreq_toNat m (show r < nodes.length by omega)]
    at hsum hle
  have htag : tagField (nodeWord0 (writeNodes m nodes) i) = true := by
    rw [nodeWord0_of_getElem? m hb, tagField_branch]
  have hcanonical : recordOk i (nodeWord0 (writeNodes m nodes) i) = true := by
    rw [nodeWord0_of_getElem? m hb, recordOk_branch_iff g hl512 hr512]
    exact ⟨hl, hr⟩
  obtain rfl : nodeFreq (writeNodes m nodes) i = g := nodeFreq_of_getElem? m hb
  subst hleft hright
  exact ⟨htag, hcanonical, hl, hr, hlroot, hrroot, hne, hsum, hle⟩

/-- Every entry but the last is a child of exactly one branch (40_build R128 (d)). -/
theorem MergeDone.parent {j : Nat} (hj : j < 2 * s.leafCount - 2) :
    ∃! i, (s.leafCount ≤ i ∧ i < 2 * s.leafCount - 1) ∧
      (leftField (nodeWord0 (writeNodes m nodes) i) = j ∨ rightField (nodeWord0 (writeNodes m nodes) i) = j) := by
  obtain ⟨hleaves, -, hnf, hused, -⟩ := h.finished
  have hparent := h.merging.parent j ((hused j).2 hj)
  rw [hleaves, hnf] at hparent
  refine (existsUnique_congr fun i => and_congr_right ?_).1 hparent
  rintro ⟨hi, hin⟩
  constructor
  · rintro ⟨l, r, g, hb, hchild⟩
    obtain ⟨-, -, hleft, hright⟩ := h.children m hi hin hb
    rwa [hleft, hright]
  · intro hchild
    obtain ⟨l, r, g, hb, -⟩ := h.branch_getElem? hi hin
    obtain ⟨-, -, hleft, hright⟩ := h.children m hi hin hb
    rw [hleft, hright] at hchild
    exact ⟨l, r, g, hb, hchild⟩

/-- A leaf written is tagged as one, is canonical, and holds the byte and the frequency of its sorted entry. -/
theorem MergeDone.leaf_words {i : Nat} (hi : i < s.leafCount) :
    tagField (nodeWord0 (writeNodes m nodes) i) = false ∧ recordOk i (nodeWord0 (writeNodes m nodes) i) = true ∧
      (sortLeaves (nonzeroLeaves s.freqTable))[i]? =
        some (byteField (nodeWord0 (writeNodes m nodes) i), nodeFreq (writeNodes m nodes) i) := by
  obtain ⟨x, hx, hleaf⟩ := h.leaf_getElem? hi
  rw [nodeWord0_of_getElem? m hleaf, nodeFreq_of_getElem? m hleaf, byteField_leaf, freq_leaf]
  exact ⟨tagField_leaf _ _, recordOk_leaf _ _ _, hx⟩

/-- Each segment of the array is in order of frequency (40_build R130 (I1), (I2)). -/
theorem MergeDone.segments_sorted {i j : Nat} (hij : i ≤ j)
    (hseg : j < s.leafCount ∨ (s.leafCount ≤ i ∧ j < 2 * s.leafCount - 1)) :
    (nodeFreq (writeNodes m nodes) i).toNat ≤ (nodeFreq (writeNodes m nodes) j).toNat := by
  obtain ⟨hleaves, hlen, hnf, -, -⟩ := h.finished
  rw [nodeFreq_toNat m (by omega), nodeFreq_toNat m (by omega)]
  rcases hseg with hj | ⟨hi, hj⟩
  · exact h.merging.inOrder.leafOrder i j hij (by omega)
  · exact h.merging.inOrder.branchOrder i j (by omega) hij (by omega)

theorem MergeDone.root_freq : (nodeFreq (writeNodes m nodes) (2 * s.leafCount - 2)).toNat = s.freqTotal := by
  obtain ⟨-, hlen, -, -, htotal⟩ := h.finished
  have hpos := h.pos
  rw [nodeFreq_toNat m (by omega), htotal]

/-- Every entry written is canonical (40_build R128 (c)). -/
theorem MergeDone.canonical {i : Nat} (hi : i < 2 * s.leafCount - 1) :
    recordOk i (nodeWord0 (writeNodes m nodes) i) = true := by
  rcases Nat.lt_or_ge i s.leafCount with hleaf | hbranch
  · obtain ⟨-, hok, -⟩ := h.leaf_words m hleaf
    exact hok
  · exact (h.branch_words m hbranch hi).canonical

/-- A path from a node takes each of its bits at another branch, so it has no more bits than there are branches up to
that node (40_build R128 (f)). -/
theorem MergeDone.path_length {i : Nat} (hi : i < 2 * s.leafCount - 1) {p : Path} {b : Byte}
    (hp : isPath (writeNodes m nodes) i p b) : p.length ≤ i + 1 - s.leafCount := by
  induction p generalizing i with
  | nil => exact Nat.zero_le _
  | cons x p ih =>
    obtain ⟨htag, hrest⟩ := hp
    have hbranch : s.leafCount ≤ i := by
      by_contra hlt
      obtain ⟨hleaf, -⟩ := h.leaf_words m (Nat.lt_of_not_le hlt)
      rw [hleaf] at htag
      cases htag
    have hchild := childOf_lt (h.canonical m hi) htag x
    have := ih (by omega) hrest
    rw [List.length_cons]
    omega

end Done
end Sys2Proof.Machine
end

section
/-! PROOFS. What a BUILD that makes a tree leaves in NODE (40_build R123, R127, R128, R130): each statement reads off
the array of the finished merge. -/

namespace Sys2Proof.Machine

/-- Settles O25: the leaves of the array are the sorted leaves, which are the non-zero entries in strict order. -/
theorem buildSortsTheLeaves : Obligations.BuildSortsTheLeaves := by
  intro s hs
  obtain ⟨nodes, w, h, hexec⟩ := exec_build_of_buildable hs
  refine ⟨_, hexec, ?entries, ?complete, ?sorted⟩
  case entries =>
    intro i hi
    obtain ⟨htag, -, hx⟩ := h.leaf_words s.node hi
    obtain ⟨hread, hne⟩ := (mem_sortedLeaves s _ _).1 (List.mem_of_getElem? hx)
    exact ⟨htag, hne, hread.symm⟩
  case complete =>
    intro v hv hne
    have hbyte : (BitVec.ofNat 8 v).toNat = v := toNat_ofNat_byte hv
    have hmem := (mem_sortedLeaves s (BitVec.ofNat 8 v) (s.freq.read v)).2 ⟨by rw [hbyte], hne⟩
    obtain ⟨i, hi⟩ := List.mem_iff_getElem?.1 hmem
    have hlt : i < s.leafCount := by
      obtain ⟨hlt, -⟩ := List.getElem?_eq_some_iff.1 hi
      rwa [← leafCount_eq, leafNodes, List.length_map]
    obtain ⟨-, -, hx⟩ := h.leaf_words s.node hlt
    rw [hi, Option.some.injEq, Prod.mk.injEq] at hx
    exact ⟨i, hlt, hx.1.symm⟩
  case sorted =>
    intro i j hij hj
    obtain ⟨-, -, hxi⟩ := h.leaf_words s.node (Nat.lt_trans hij hj)
    obtain ⟨-, -, hxj⟩ := h.leaf_words s.node hj
    obtain ⟨hi', hxi⟩ := List.getElem?_eq_some_iff.1 hxi
    obtain ⟨hj', hxj⟩ := List.getElem?_eq_some_iff.1 hxj
    have hsorted := sortLeaves_sorted (nodup_nonzeroLeaves (length_freqTable s).le)
    have hbefore := List.pairwise_iff_getElem.1 hsorted i j hi' hj' hij
    rwa [hxi, hxj, leafBefore_iff] at hbefore

/-- Settles O26: a finished merge has `2L - 1` entries, and BUILD writes those and no more. -/
theorem buildCompletes : Obligations.BuildCompletes := by
  intro s hs
  obtain ⟨nodes, w, h, hexec⟩ := exec_build_of_buildable hs
  refine ⟨_, hexec, rfl, rfl, rfl, h.nodeCount_eq, h.root_eq, rfl, fun k hk => ?_⟩
  exact read_writeNodes_above _ _ _ (by rwa [h.length_eq])

/-- Settles O27: leaves below `L`, branches from there on, and every record canonical. -/
theorem buildWritesCanonicalRecords : Obligations.BuildWritesCanonicalRecords := by
  intro s hs
  obtain ⟨nodes, w, h, hexec⟩ := exec_build_of_buildable hs
  refine ⟨_, hexec, ?check, ?leaves, ?branches, fun i hi => h.canonical s.node hi⟩
  case check =>
    have hpos := h.pos
    have hcount := leafCount_le s
    rw [treeCheck_none, h.nodeCount_eq]
    exact ⟨by omega, fun i hi => h.canonical s.node hi⟩
  case leaves =>
    intro i hi
    obtain ⟨htag, -⟩ := h.leaf_words s.node hi
    exact htag
  case branches =>
    intro i hi hin
    have hb := h.branch_words s.node hi hin
    exact ⟨hb.tag, hb.left_lt, hb.right_lt⟩

/-- Settles O28: every entry picked has one parent, and all but the last have been picked. -/
theorem buildMakesATree : Obligations.BuildMakesATree := by
  intro s hs
  obtain ⟨nodes, w, h, hexec⟩ := exec_build_of_buildable hs
  refine ⟨_, hexec, fun j hj => h.parent s.node hj, fun i hi hin => ?_⟩
  have hb := h.branch_words s.node hi hin
  exact ⟨hb.ne, hb.left_lt_root, hb.right_lt_root⟩

/-- Settles O29: each branch holds the sum of its picks, and the last entry what all leaves come to. -/
theorem buildSumsFrequencies : Obligations.BuildSumsFrequencies := by
  intro s hs
  obtain ⟨nodes, w, h, hexec⟩ := exec_build_of_buildable hs
  refine ⟨_, hexec, fun i hi hin => (h.branch_words s.node hi hin).sum, ?_⟩
  rw [h.root_eq]
  exact h.root_freq s.node

/-- Settles O30: the branches are in order, so a branch is at least every branch before it, and that is the sum of its
own children. -/
theorem buildKeepsTheOrder : Obligations.BuildKeepsTheOrder := by
  intro s hs
  obtain ⟨nodes, w, h, hexec⟩ := exec_build_of_buildable hs
  refine ⟨_, hexec, ?leaves, ?branches, fun i hi hin => (h.branch_words s.node hi hin).le⟩
  case leaves => exact fun i j hij hj => h.segments_sorted s.node hij (.inl hj)
  case branches =>
    intro i j hi hij hj
    have hle := h.segments_sorted s.node hij (.inr ⟨hi, hj⟩)
    have hsum := (h.branch_words s.node hi (by omega)).sum
    exact ⟨hle, Nat.le_trans (Nat.le_of_add_right_le hsum.ge) hle, Nat.le_trans (Nat.le_of_add_left_le hsum.ge) hle⟩

/-- Settles O39: with two leaves the root is a branch, and a path from it has at most as many bits as the tree has
branches. -/
theorem buildPathsAreShort : Obligations.BuildPathsAreShort := by
  intro s hs htwo
  obtain ⟨nodes, w, h, hexec⟩ := exec_build_of_buildable hs
  refine ⟨_, hexec, fun b p hp => ?_⟩
  rw [State.findRootPath, h.root_eq] at hp
  obtain ⟨hpath, -⟩ := findPath_isPath hp
  constructor
  · cases p with
    | nil =>
      have htag := (h.branch_words s.node (i := 2 * s.leafCount - 2) (by omega) (by omega)).tag
      exact absurd hpath.1 (by simp [htag])
    | cons x p => exact Nat.succ_pos _
  · have := h.path_length s.node (by omega) hpath
    omega

end Sys2Proof.Machine
end

section
/-! PROOFS. The other ends of BUILD: the empty input (40_build R121), one leaf (R122), the overflow (R126, R129), the
pick that never fails (R131), and that FREQ alone decides (R132). -/

namespace Sys2Proof.Machine

/-- Settles O23: a table of zeros has no leaf. -/
theorem buildOfNothing : Obligations.BuildOfNothing := by
  intro s hzero
  have hcount := leafCount_eq_zero hzero
  rcases exec_build_cases s with ⟨-, hexec⟩ | ⟨-, nodes, w, h, -⟩ | ⟨htwo, -⟩
  · exact hexec
  · have := h.pos
    omega
  · omega

/-- Settles O24: the merge of one leaf has no step to make, so its array is that leaf. -/
theorem buildOfOneLeaf : Obligations.BuildOfOneLeaf := by
  intro s v f hv hf hread hzero
  have hleaves := leafNodes_singleton hv hf hread hzero
  have hb : buildTree true s.freqTable = .ok [.leaf (BitVec.ofNat 8 v) f] := by
    simp only [buildTree, hleaves]
    rfl
  have hword : (Node.leaf (BitVec.ofNat 8 v) f).word0 = BitVec.ofNat 64 (v * 256) := by
    rw [word0_leaf, toNat_ofNat_byte hv]
    rfl
  rw [exec_eq, ← hword]
  exact congrArg _ (buildEffect_of_tree hb (List.cons_ne_nil _ _))

/-- Settles O32: BUILD raises only where the merge overflows, at the step `mergeLoop_cases` names; with at most 256
leaves its index is at most 510. -/
theorem buildOverflowsExactly : Obligations.BuildOverflowsExactly := by
  intro s
  rcases exec_build_cases s with
    ⟨hzero, hexec⟩ | ⟨hfit, nodes, w, -, hexec⟩ | ⟨htwo, htotal, nf, hlo, hhi, ⟨⟨nodes, hok, hlen⟩, hraise⟩, hexec⟩
  · exact ⟨_, hexec, ⟨nofun, by omega⟩, nofun⟩
  · exact ⟨_, hexec, ⟨nofun, by omega⟩, nofun⟩
  · have hcount := leafCount_le s
    exact ⟨_, hexec, ⟨fun _ => ⟨htwo, htotal⟩, fun _ => rfl⟩,
      fun _ => ⟨nf, nodes, hlo, by omega, by omega, by omega, hok, hlen, hraise, rfl⟩⟩

/-- Settles O33: the third end of BUILD, and the only one for such a table. -/
theorem buildFaultEffects : Obligations.BuildFaultEffects := by
  intro s htwo htotal
  rcases exec_build_cases s with ⟨hzero, -⟩ | ⟨hfit, -⟩ | ⟨-, -, nf, -, -, -, hexec⟩
  · omega
  · omega
  · exact ⟨_, hexec, rfl⟩

theorem leafBefore_freq_le {x y : Byte × Word} (h : leafBefore x y = true) : x.2.toNat ≤ y.2.toNat := by
  rcases (leafBefore_iff x y).1 h with hlt | ⟨heq, -⟩
  · exact hlt.le
  · rw [heq]

theorem freq_le_of_not_leafBefore {x y : Byte × Word} (h : ¬ leafBefore x y = true) : y.2.toNat ≤ x.2.toNat := by
  rw [leafBefore_iff] at h
  omega

theorem insertLeaf_freq_sorted {x : Byte × Word} {l : List (Byte × Word)}
    (h : l.Pairwise (fun a b => a.2.toNat ≤ b.2.toNat)) :
    (insertLeaf x l).Pairwise (fun a b => a.2.toNat ≤ b.2.toNat) := by
  induction l with
  | nil => exact List.pairwise_singleton _ _
  | cons y rest ih =>
    obtain ⟨hy, hrest⟩ := List.pairwise_cons.1 h
    rw [insertLeaf]
    split
    · rename_i hxy
      refine List.pairwise_cons.2 ⟨fun z hz => ?_, h⟩
      rcases List.mem_cons.1 hz with rfl | hz
      · exact leafBefore_freq_le hxy
      · exact Nat.le_trans (leafBefore_freq_le hxy) (hy z hz)
    · rename_i hxy
      refine List.pairwise_cons.2 ⟨fun z hz => ?_, ih hrest⟩
      rcases List.mem_cons.1 ((insertLeaf_perm x rest).mem_iff.1 hz) with rfl | hz
      · exact freq_le_of_not_leafBefore hxy
      · exact hy z hz

/-- The sort orders by frequency whatever the list, where two leaves are the same too. -/
theorem sortLeaves_freq_sorted (l : List (Byte × Word)) :
    (sortLeaves l).Pairwise (fun a b => a.2.toNat ≤ b.2.toNat) := by
  induction l with
  | nil => exact .nil
  | cons x rest ih => exact insertLeaf_freq_sorted ih

/-- The leaves of a table of any length are in order of frequency, which is all the merge asks of them. -/
theorem leafNodes_freq_sorted (table : List Word) (i j : Nat) (hij : i ≤ j) (hj : j < (leafNodes table).length) :
    fr (leafNodes table) i ≤ fr (leafNodes table) j := by
  obtain ⟨x, hx, -, hfx⟩ := fr_leafNodes table (Nat.lt_of_le_of_lt hij hj)
  obtain ⟨y, hy, -, hfy⟩ := fr_leafNodes table hj
  rw [hfx, hfy]
  rcases Nat.eq_or_lt_of_le hij with rfl | hlt
  · rw [hx, Option.some.injEq] at hy
    rw [hy]
  · obtain ⟨hi', rfl⟩ := List.getElem?_eq_some_iff.1 hx
    obtain ⟨hj', rfl⟩ := List.getElem?_eq_some_iff.1 hy
    exact List.pairwise_iff_getElem.1 (sortLeaves_freq_sorted _) i j hi' hj' hlt

/-- Settles O31: with no leaf there is no merge step, and otherwise the merge ends or raises the overflow fault. -/
theorem pickIsNeverExhausted : Obligations.PickIsNeverExhausted := by
  intro side table nf h
  rw [buildTree] at h
  rcases Nat.eq_zero_or_pos (leafNodes table).length with hzero | hpos
  · simp [hzero, mergeLoop] at h
  · have hsteps : 0 + ((leafNodes table).length - 1) < (leafNodes table).length := by omega
    rcases mergeLoop_cases _ (merging_start side (leafNodes_freq_sorted table)) hsteps with
      ⟨nodes, w, hok, -⟩ | ⟨nf', -, -, hraise, -⟩
    · simp [hok] at h
    · simp [hraise] at h

/-- Settles O34: BUILD's end depends on the tree of FREQ alone, and so do the words it writes. -/
theorem buildIsDeterminedByFreq : Obligations.BuildIsDeterminedByFreq := by
  intro s₁ s₂ hfreq
  refine ⟨_, _, exec_eq .build s₁, exec_eq .build s₂, ?_⟩
  have htable := freqTable_congr hfreq
  rcases hb : buildTree true s₁.freqTable with ⟨kind, value⟩ | nodes
  · rw [buildEffect_of_error hb, buildEffect_of_error (htable ▸ hb)]
    exact ⟨rfl, rfl, rfl, fun k hk => absurd hk (Nat.not_lt_zero k)⟩
  · by_cases hnil : nodes = []
    · subst hnil
      rw [buildEffect_of_nil hb, buildEffect_of_nil (htable ▸ hb)]
      exact ⟨rfl, rfl, rfl, fun k hk => absurd hk (Nat.not_lt_zero k)⟩
    · rw [buildEffect_of_tree hb hnil, buildEffect_of_tree (htable ▸ hb) hnil]
      refine ⟨rfl, rfl, rfl, fun k hk => read_writeNodes_below _ _ _ ?_⟩
      rw [withTree_nodeCount, BitVec.toNat_ofNat] at hk
      exact Nat.lt_of_lt_of_le hk (Nat.mul_le_mul_left 2 (Nat.mod_le _ _))

end Sys2Proof.Machine
end

section
/-! PROOFS. The tree of a command (41_encode R152, R153, R162): the search on a checked array, and the paths of the
byte values. -/

namespace Sys2Proof.Machine

/-- Settles O36: a canonical branch's children lie below it, so on the budget the branch leaves them their searches are
those on their own, and a path is shorter than its search's budget, at most 511. -/
theorem findPathIsLeftFirst : Obligations.FindPathIsLeftFirst := by
  intro s b i htree hi
  obtain ⟨⟨-, hmax⟩, hok⟩ := treeCheck_none.1 htree
  refine ⟨?recursion, fun p hp => ?found⟩
  case recursion =>
    rw [findPath]
    split
    next htag =>
      obtain ⟨hleft, hright⟩ := recordOk_children (hok i hi) htag
      rw [← findPath_budget hok b (hleft.trans hi) hleft, ← findPath_budget hok b (hright.trans hi) hright]
      generalize findPath s.node i (leftField (nodeWord0 s.node i)) b = left
      generalize findPath s.node i (rightField (nodeWord0 s.node i)) b = right
      cases left <;> cases right <;> rfl
    next => rfl
  case found =>
    obtain ⟨hpath, hlen⟩ := findPath_isPath hp
    exact ⟨by omega, hpath⟩

/-- Settles O37: both paths lead from the root to a leaf, and of two such paths neither goes on past the other. -/
theorem pathsArePrefixFree : Obligations.PathsArePrefixFree := by
  intro s a b p q hp hq hpre
  obtain ⟨hpathp, -⟩ := findPath_isPath hp
  obtain ⟨hpathq, -⟩ := findPath_isPath hq
  exact (isPath_prefix hpathp hpathq hpre).symm

/-- On a checked array the search from the root finds a path where there is one. -/
theorem findRootPath_isSome {s : State} {b : Byte} {p : Path} (htree : treeCheck s = none)
    (hp : isPath s.node s.root p b) : (s.findRootPath b).isSome = true := by
  obtain ⟨⟨hpos, -⟩, hok⟩ := treeCheck_none.1 htree
  rw [Option.isSome_iff_ne_none]
  intro hnone
  have hroot : s.root < s.nodeCount.toNat := Nat.sub_lt hpos Nat.one_pos
  exact findPath_none hok hroot (Nat.lt_succ_self _) hnone p hp

/-- In the array of a finished merge a path from any entry extends upwards, from child to parent, to a path from the
root (40_build R128 (d)). -/
theorem MergeDone.root_path {s : State} {nodes : List Node} {w : BuildWork} (h : MergeDone s nodes w) (m : Memory 64)
    {j : Nat} (hj : j ≤ 2 * s.leafCount - 2) {p : Path} {b : Byte} (hp : isPath (writeNodes m nodes) j p b) :
    ∃ q, isPath (writeNodes m nodes) (2 * s.leafCount - 2) q b := by
  induction hd : 2 * s.leafCount - 2 - j using Nat.strong_induction_on generalizing j p with
  | _ d ih =>
    rcases Nat.eq_or_lt_of_le hj with rfl | hlt
    · exact ⟨p, hp⟩
    · obtain ⟨i, ⟨⟨hi, hin⟩, hchild⟩, -⟩ := h.parent m hlt
      have hbranch := h.branch_words m hi hin
      obtain ⟨x, rfl⟩ : ∃ x, childOf (writeNodes m nodes) i x = j :=
        hchild.elim (fun hl => ⟨false, hl⟩) (fun hr => ⟨true, hr⟩)
      have hup : childOf (writeNodes m nodes) i x < i := childOf_lt hbranch.canonical hbranch.tag x
      exact ih _ (by omega) (by omega) (p := x :: p) ⟨hbranch.tag, hp⟩ rfl

/-- Settles O38: a non-zero entry has its leaf in the array, the leaf's empty path extends to one from the root, and on
the checked array the search finds it. -/
theorem buildGivesEveryByteAPath : Obligations.BuildGivesEveryByteAPath := by
  intro s hs
  obtain ⟨nodes, w, h, hexec⟩ := exec_build_of_buildable hs
  obtain ⟨t, hexec', hleaves, hcomplete, -⟩ := buildSortsTheLeaves s hs
  obtain ⟨t', hexec'', htree, -⟩ := buildWritesCanonicalRecords s hs
  obtain rfl : t = s.withTree nodes := by simpa [hexec'] using hexec
  obtain rfl : s.withTree nodes = t' := by simpa [hexec'] using hexec''
  refine ⟨_, hexec, fun v hv hne => ?_⟩
  obtain ⟨i, hi, hbyte⟩ := hcomplete v hv hne
  obtain ⟨htag, -⟩ := hleaves i hi
  obtain ⟨q, hq⟩ := h.root_path s.node (j := i) (p := []) (by omega) ⟨htag, hbyte⟩
  rw [← h.root_eq] at hq
  exact findRootPath_isSome htree hq

end Sys2Proof.Machine
end

section
/-! PROOFS. What ENCODE and DECODE raise (41_encode R151, R152, R157, R159, R160; 42_decode R188): the state a fault
ends in, then the test or the payload byte it comes from. -/

namespace Sys2Proof.Machine

/-! ### The state at the end -/

theorem encodeEffect_of_error {p : Params} {s : State} {kind : FaultKind} {value : Nat} (hpos : s.payLen ≠ 0#64)
    (h : encodePayload p s.clearCache = .error (kind, value)) :
    encodeEffect p s = s.discardStream.raise kind value := by
  simp only [encodeEffect, clearCache_payLen, if_neg hpos, h]
  rfl

theorem encodeEffect_of_ok {p : Params} {s : State} {r : EncodeRun} (hpos : s.payLen ≠ 0#64)
    (h : encodePayload p s.clearCache = .ok r) :
    encodeEffect p s = { s.clearCache with
      bitbuf := r.bitbuf, bitCount := BitVec.ofNat 64 r.work.nbits, cc := .known r.cc }.finish .ok := by
  simp only [encodeEffect, clearCache_payLen, if_neg hpos, h]

theorem decodeEffect_of_error {p : Params} {s : State} {kind : FaultKind} {value : Nat} (hpos : s.symCount ≠ 0#64)
    (h : decodeStream p s = .error (kind, value)) : decodeEffect p s = s.discardOutput.raise kind value := by
  simp only [decodeEffect, if_neg hpos, h]

theorem ne_zero_of_lt_toNat {w : Word} {n : Nat} (h : n < w.toNat) : w ≠ 0#64 := by
  rintro rfl
  exact Nat.not_lt_zero n h

/-! ### The length tests -/

theorem encodePayload_tooLong {p : Params} {s : State} (h : p.payMax < s.payLen.toNat) :
    encodePayload p s = .error (.payloadTooLong, 0) := if_pos h

/-- Settles O41: the empty payload ends before anything is looked at, and one that is too long before the tree is. -/
theorem encodeTestsTheLength : Obligations.EncodeTestsTheLength := by
  intro s
  rw [exec_eq]
  constructor
  · exact fun hzero => congrArg _ (if_pos hzero)
  · exact fun hlong => congrArg _ (encodeEffect_of_error (ne_zero_of_lt_toNat hlong) (encodePayload_tooLong hlong))

/-! ### TreeCheck -/

/-- The lowest bad record below NODE_COUNT is the one named. -/
theorem firstBadNode_eq_some {node : Memory 64} {n i : Nat} (hi : i < n)
    (hbad : recordOk i (nodeWord0 node i) = false) (hok : ∀ k < i, recordOk k (nodeWord0 node k) = true) :
    firstBadNode node n = some i := by
  rw [firstBadNode, List.find?_range_eq_some]
  exact ⟨by simp [hbad], List.mem_range.2 hi, fun k hk => by simp [hok k hk]⟩

theorem treeCheck_of_range {s : State} (h : s.nodeCount.toNat = 0 ∨ 511 < s.nodeCount.toNat) :
    treeCheck s = some (.nodeCountRange, s.nodeCount.toNat) := if_pos h

theorem treeCheck_of_badNode {s : State} {i : Nat} (hmax : s.nodeCount.toNat ≤ 511) (hi : i < s.nodeCount.toNat)
    (hbad : recordOk i (nodeWord0 s.node i) = false) (hok : ∀ k < i, recordOk k (nodeWord0 s.node k) = true) :
    treeCheck s = some (.nodeNotCanonical, i) := by
  rw [treeCheck, if_neg (by omega), firstBadNode_eq_some hi hbad hok]
  rfl

theorem encodePayload_of_treeCheck {p : Params} {s : State} {e : FaultKind × Nat} (hlen : s.payLen.toNat ≤ p.payMax)
    (h : treeCheck s = some e) : encodePayload p s = .error e := by
  simp only [encodePayload, if_neg (Nat.not_lt.2 hlen), h]

theorem decodeStream_of_treeCheck {p : Params} {s : State} {e : FaultKind × Nat} (hlen : s.symCount.toNat ≤ p.outMax)
    (h : treeCheck s = some e) : decodeStream p s = .error e := by
  simp only [decodeStream, if_neg (Nat.not_lt.2 hlen), h]

/-- Settles O35: TreeCheck names a count out of range or the lowest bad record, and both commands raise what it names,
a TREE_ERROR. -/
theorem treeCheckRaises : Obligations.TreeCheckRaises := by
  refine ⟨fun s => treeCheck_none.trans and_assoc, fun s kind value hbad => ?_⟩
  obtain ⟨htree, hresult⟩ : treeCheck s = some (kind, value) ∧ kind.result = .treeError := by
    rcases hbad with ⟨hrange, rfl, rfl⟩ | ⟨hmax, rfl, hvalue, hbad, hok⟩
    · exact ⟨treeCheck_of_range hrange, rfl⟩
    · exact ⟨treeCheck_of_badNode hmax hvalue hbad hok, rfl⟩
  rw [← hresult, exec_eq, exec_eq]
  constructor
  · exact fun hpos hlen => congrArg _ (encodeEffect_of_error hpos (encodePayload_of_treeCheck hlen htree))
  · exact fun hpos hlen => congrArg _ (decodeEffect_of_error hpos (decodeStream_of_treeCheck hlen htree))

/-! ### The payload bytes -/

/-- A loop over `m + n` bytes is one over `n` from where the first `m` end. -/
theorem encodeLoop_add {p : Params} {s : State} {m : Nat} (n : Nat) {r r' : EncodeRun}
    (h : encodeLoop p s m r = .ok r') : encodeLoop p s (m + n) r = encodeLoop p s n r' := by
  induction m generalizing r with
  | zero =>
    cases h
    rw [Nat.zero_add]
  | succ m ih =>
    rw [Nat.add_right_comm]
    simp only [encodeLoop] at h ⊢
    split at h
    · cases h
    · exact ih h

/-- Where the bytes before byte `j` are packed and byte `j` raises `e`, the whole encode does (41_encode R150). -/
theorem encodePayload_of_byte {p : Params} {s : State} {j : Nat} {bits : Path} {e : FaultKind × Nat}
    (hlen : s.payLen.toNat ≤ p.payMax) (htree : treeCheck s = none) (hj : j < s.payLen.toNat)
    (hbits : s.payloadBits j = some bits) (hfit : bits.length ≤ 8 * p.bitbufMax)
    (hbyte : ∀ r : EncodeRun, CacheSound s r.cc → r.work.j = j → r.work.nbits = bits.length →
      encodeByte p s r = .error e) :
    encodePayload p s = .error e := by
  obtain ⟨r, hloop⟩ := encodeLoop_of_payloadBits hbits hfit
  rcases encodeLoop_cases p s s.bitbuf j _ (encodeKeeps_start p s s.bitbuf) with
    ⟨r', hloop', hkeeps, hrj⟩ | ⟨_, _, -, -, -, -, ⟨-, hfault⟩ | ⟨_, -, -, hfault⟩⟩
  case inl =>
    obtain rfl : r = r' := by simpa [hloop] using hloop'
    obtain rfl : r.work.j = j := by simpa [EncodeWork.start] using hrj
    obtain ⟨bits', hbits', hpacked⟩ := hkeeps.packed
    obtain rfl : bits = bits' := by simpa [hbits] using hbits'
    have hraise := hbyte r hkeeps.sound rfl hpacked.nbits
    obtain ⟨n, hn⟩ : ∃ n, s.payLen.toNat = r.work.j + (n + 1) := Nat.exists_eq_add_of_lt hj
    have hrest : encodeLoop p s (n + 1) r = .error e := by rw [encodeLoop, hraise]
    rw [hn] at hlen
    simp only [encodePayload, hn, if_neg (Nat.not_lt.2 hlen), htree, encodeLoop_add (n + 1) hloop, hrest]
  all_goals simp [hloop] at hfault

/-- Settles O44: the first byte without a path. -/
theorem encodeRaisesNoPath : Obligations.EncodeRaisesNoPath := by
  intro s j bits hlen htree hj hbits hfit hnone
  have hraise : encodePayload Config.platform s.clearCache = .error (.noPath, j) := by
    refine encodePayload_of_byte hlen htree hj ((payloadBits_clearCache s j).trans hbits) hfit ?_
    rintro r hsound rfl -
    exact encodeByte_noPath hsound hnone
  exact (exec_eq .encode s).trans (congrArg _ (encodeEffect_of_error (ne_zero_of_lt_toNat hj) hraise))

/-- Settles O45: the first byte whose path does not fit. -/
theorem encodeRaisesStreamTooLong : Obligations.EncodeRaisesStreamTooLong := by
  refine ⟨exec_eq .encode, fun p s j bits q hlen htree hj hbits hfit hq hlong => ?_⟩
  have hraise : encodePayload p s.clearCache = .error (.streamTooLong, j) := by
    refine encodePayload_of_byte hlen htree hj ((payloadBits_clearCache s j).trans hbits) hfit ?_
    rintro r hsound rfl hnbits
    exact encodeByte_tooLong hsound hq (by rwa [hnbits])
  exact encodeEffect_of_error (ne_zero_of_lt_toNat hj) hraise

end Sys2Proof.Machine
end

section
/-! PROOFS. The cache a successful ENCODE leaves (41_encode R154, R155), and ENCODE on the one-node tree (R161). -/

namespace Sys2Proof.Machine

/-- Settles O43: the run has cached exactly the bytes it has seen, and every cached path is the one a search finds. -/
theorem encodeFillsTheCache : Obligations.EncodeFillsTheCache := by
  intro s bits hpos hlen htree hbits hfit
  obtain ⟨r, hkeeps, hj, -, heq⟩ := encodeEffect_of_payloadBits hpos hlen htree hbits hfit
  refine ⟨_, r.cc, (exec_eq .encode s).trans (congrArg _ heq), rfl, fun b => ?_⟩
  have hseen := hkeeps.seen b
  rw [hj] at hseen
  constructor
  · intro hoccurs
    obtain ⟨q, hq⟩ := Option.ne_none_iff_exists'.1 (hseen.2 hoccurs)
    exact hq.trans (hkeeps.sound b q hq).symm
  · intro hother
    by_contra hcached
    obtain ⟨j, hj, hb⟩ := hseen.1 hcached
    exact hother j hj hb

/-! ### The one-node tree -/

section OneNode
variable {s : State} {v : Byte} (hcount : s.nodeCount = 1#10) (hword : nodeWord0 s.node 0 = v.setWidth 64 <<< 8)
include hcount hword

/-- Its one record is a leaf's, canonical at every index. -/
theorem treeCheck_oneNode : treeCheck s = none := by
  have hone : s.nodeCount.toNat = 1 := by rw [hcount]; rfl
  rw [treeCheck_none, hone]
  refine ⟨by omega, fun i hi => ?_⟩
  obtain rfl : i = 0 := by omega
  rw [hword]
  exact recordOk_leaf 0 v 0#64

theorem findRootPath_oneNode (b : Byte) : s.findRootPath b = if v = b then some [] else none := by
  have hroot : s.root = 0 := by rw [State.root, hcount]; rfl
  have htag : tagField (nodeWord0 s.node 0) = false := hword ▸ tagField_leaf v 0#64
  have hbyte : byteField (nodeWord0 s.node 0) = v := hword ▸ byteField_leaf v 0#64
  simp [State.findRootPath, hroot, findPath, htag, hbyte]

theorem payloadBits_oneNode {n : Nat} (h : ∀ j < n, s.pay.read j = v) : s.payloadBits n = some [] := by
  induction n with
  | zero => rfl
  | succ n ih =>
    refine payloadBits_succ.2 ⟨[], [], ih fun j hj => h j (by omega), ?_, rfl⟩
    rw [findRootPath_oneNode hcount hword, h n (by omega), if_pos rfl]

end OneNode

/-- Bytes whose paths are empty change the cache and the payload index alone: no bit is packed and BITBUF is not
written. -/
theorem encodeLoop_of_emptyPaths {p : Params} {s : State} {n : Nat} {r : EncodeRun} (hsound : CacheSound s r.cc)
    (hfit : r.work.nbits ≤ 8 * p.bitbufMax)
    (hempty : ∀ j, r.work.j ≤ j → j < r.work.j + n → s.findRootPath (s.pay.read j) = some []) :
    ∃ r', encodeLoop p s n r = .ok r' ∧ r'.work.nbits = r.work.nbits ∧ r'.bitbuf = r.bitbuf := by
  induction n generalizing r with
  | zero => exact ⟨r, rfl, rfl, rfl⟩
  | succ n ih =>
    obtain ⟨cc, hcached, hsound', -⟩ := cachedPath_some hsound (hempty r.work.j (by omega) (by omega))
    have hbyte : encodeByte p s r = .ok { r with cc := cc, work := { r.work with j := r.work.j + 1 } } := by
      simp only [encodeByte, hcached]
      exact if_neg (Nat.not_lt.2 hfit)
    simp only [encodeLoop, hbyte]
    refine ih hsound' hfit fun j hj hjn => hempty j ?_ ?_
    · exact Nat.le_of_succ_le hj
    · simp only at hjn
      omega

/-- Settles O46: on the one-node tree the empty path is its byte's and no other byte has one, so a payload of that
byte alone packs nothing and another byte raises. -/
theorem encodeOnAOneNodeTree : Obligations.EncodeOnAOneNodeTree := by
  intro s v hcount hword hpos hlen
  have hfind := findRootPath_oneNode hcount hword
  have htree := treeCheck_oneNode hcount hword
  refine ⟨by rw [hfind, if_pos rfl], fun hall => ?alone, fun j hj hbefore hother => ?another⟩
  case alone =>
    obtain ⟨r, hloop, hnbits, hbitbuf⟩ := encodeLoop_of_emptyPaths (p := Config.platform) (s := s.clearCache)
      (n := s.payLen.toNat) (r := { work := EncodeWork.start, cc := [], bitbuf := s.bitbuf })
      (cacheSound_nil _) (Nat.zero_le _)
      (fun j _ hj => (hfind _).trans (if_pos (hall j (by simpa [EncodeWork.start] using hj)).symm))
    have hflush : flushByte r = r := if_pos (by rw [hnbits]; rfl)
    have hok : encodePayload Config.platform s.clearCache = .ok r := by
      have htree' : treeCheck s.clearCache = none := htree
      simp only [encodePayload, clearCache_payLen, clearCache_bitbuf, if_neg (Nat.not_lt.2 hlen), htree', hloop,
        hflush]
    refine ⟨_, (exec_eq .encode s).trans (congrArg _ (encodeEffect_of_ok hpos hok)), rfl, ?_, hbitbuf⟩
    rw [finish_bitCount, hnbits]
    rfl
  case another =>
    refine ⟨_, encodeRaisesNoPath s j [] hlen htree hj (payloadBits_oneNode hcount hword hbefore) (Nat.zero_le _) ?_,
      rfl, rfl⟩
    rw [hfind, if_neg (Ne.symm hother)]

end Sys2Proof.Machine
end

section
/-! PROOFS. How a DECODE ends (42_decode R181, R182, R183): the test or the walk that decides, then the state it ends
in. -/

namespace Sys2Proof.Machine

/-! ### The state at the end -/

theorem decodeEffect_of_zero {p : Params} {s : State} (h : s.symCount = 0#64) :
    decodeEffect p s = { s with outLen := 0#64 }.finish .ok := if_pos h

theorem decodeEffect_of_ok {p : Params} {s : State} {out : Memory 8} (hpos : s.symCount ≠ 0#64)
    (h : decodeStream p s = .ok out) : decodeEffect p s = { s with out := out, outLen := s.symCount }.finish .ok := by
  simp only [decodeEffect, if_neg hpos, h]

/-! ### Which test or walk decides -/

theorem decodeStream_tooLong {p : Params} {s : State} (h : p.outMax < s.symCount.toNat) :
    decodeStream p s = .error (.outputTooLong, 0) := if_pos h

section Checked
variable {p : Params} {s : State} (hlen : s.symCount.toNat ≤ p.outMax) (htree : treeCheck s = none)
include hlen htree

theorem decodeStream_of_leafRoot (hroot : tagField (nodeWord0 s.node s.root) = false) :
    decodeStream p s = .ok (fillOut s.out (byteField (nodeWord0 s.node s.root)) s.symCount.toNat) := by
  simp [decodeStream, Nat.not_lt.2 hlen, htree, hroot]

theorem decodeStream_of_bitCount (hroot : tagField (nodeWord0 s.node s.root) = true)
    (hbits : 8 * p.bitbufMax < s.bitCount.toNat) : decodeStream p s = .error (.bitCountTooLarge, 0) := by
  simp only [decodeStream, if_neg (Nat.not_lt.2 hlen), htree, if_pos hroot, if_pos hbits]

theorem decodeStream_of_branchRoot (hroot : tagField (nodeWord0 s.node s.root) = true)
    (hbits : s.bitCount.toNat ≤ 8 * p.bitbufMax) :
    decodeStream p s = walk s s.bitCount.toNat (DecodeWork.start s.root) s.out := by
  simp only [decodeStream, if_neg (Nat.not_lt.2 hlen), htree, if_pos hroot, if_neg (Nat.not_lt.2 hbits)]

end Checked

/-- Settles O48: the zero count ends DECODE before anything is looked at. -/
theorem decodeOfNothing : Obligations.DecodeOfNothing :=
  fun s hzero => (exec_eq .decode s).trans (congrArg _ (decodeEffect_of_zero hzero))

/-- Settles O49: SYM_COUNT is tested before the tree is, BIT_COUNT once the root is known to be a branch. -/
theorem decodeTestsTheCapacities : Obligations.DecodeTestsTheCapacities := by
  intro s
  rw [exec_eq]
  constructor
  · exact fun hlong => congrArg _ (decodeEffect_of_error (ne_zero_of_lt_toNat hlong) (decodeStream_tooLong hlong))
  · intro hpos hlen htree hroot hbits
    exact congrArg _ (decodeEffect_of_error hpos (decodeStream_of_bitCount hlen htree hroot hbits))

/-- Settles O50: a leaf root fills OUT with its byte and no bit is read. -/
theorem decodeWithALeafRoot : Obligations.DecodeWithALeafRoot := by
  intro s hpos hlen htree hroot
  have hend := decodeEffect_of_ok hpos (decodeStream_of_leafRoot hlen htree hroot)
  exact ⟨_, (exec_eq .decode s).trans (congrArg _ hend), rfl, read_fillOut _ _ _⟩

end Sys2Proof.Machine
end

section
/-! PROOFS. DECODE with a branch root (42_decode R184 to R187): the symbols the counted bits hold, the bits that run
out, and that only the counted bits are read. -/

namespace Sys2Proof.Machine

/-- A walk from the root over bits that begin with the paths of `bytes` writes those bytes and has the remaining bits
before it (42_decode R184). -/
theorem walk_start {s : State} {bytes : List Byte} {paths : List Path}
    (hroot : tagField (nodeWord0 s.node s.root) = true)
    (hpaths : List.Forall₂ (fun b p => isPath s.node s.root p b) bytes paths)
    (hcount : bytes.length ≤ s.symCount.toNat) (hcounted : paths.flatten.length ≤ s.bitCount.toNat)
    (hbits : ∀ i (h : i < paths.flatten.length), bitRead s.bitbuf i = paths.flatten[i]) :
    walk s s.bitCount.toNat (DecodeWork.start s.root) s.out =
      walk s (s.bitCount.toNat - paths.flatten.length)
        { cur := s.root, pos := paths.flatten.length, emitted := bytes.length } (s.out.writeList 0 bytes) := by
  have hwalk := walk_symbols s hroot hpaths (s.bitCount.toNat - paths.flatten.length) 0 0 s.out
    (by omega) (by simpa only [Nat.zero_add] using hbits)
  rwa [Nat.add_sub_of_le hcounted, Nat.zero_add, Nat.zero_add] at hwalk

/-- The bytes of consecutive writes from index 0 on, and those past them. -/
theorem read_writeList_zero {n : Nat} (m : Memory n) (l : List (BitVec n)) :
    (∀ k (h : k < l.length), (m.writeList 0 l).read k = l[k]) ∧
      ∀ k, l.length ≤ k → (m.writeList 0 l).read k = m.read k := by
  simp only [read_writeList]
  refine ⟨fun k hk => ?_, fun k hk => dif_neg (by omega)⟩
  rw [dif_pos (by omega)]
  rfl

/-- Settles O51: the walk writes the bytes whose paths it reads and stops at the count; with a count of 0 there is
none to write. -/
theorem decodeEmitsTheSymbols : Obligations.DecodeEmitsTheSymbols := by
  intro s bytes paths hlen htree hroot hfit hcount hpaths hcounted hbits
  have hend : decodeEffect Config.platform s =
      { s with out := s.out.writeList 0 bytes, outLen := s.symCount }.finish .ok := by
    by_cases hzero : s.symCount = 0#64
    · obtain rfl : bytes = [] := List.length_eq_zero_iff.1 (by rw [hcount, hzero]; rfl)
      rw [decodeEffect_of_zero hzero, hzero]
      rfl
    · refine decodeEffect_of_ok hzero ?_
      rw [decodeStream_of_branchRoot hlen htree hroot hfit, walk_start hroot hpaths hcount.le hcounted hbits]
      exact walk_done _ _ _ _ hcount.ge
  exact ⟨_, (exec_eq .decode s).trans (congrArg _ hend), rfl, read_writeList_zero _ _⟩

/-- Settles O52: the walk writes the bytes whose paths it reads, and the bits left run out before another leaf. -/
theorem decodeRunsOutOfBits : Obligations.DecodeRunsOutOfBits := by
  intro s bytes paths hlen htree hroot hfit hcount hpaths hcounted hbits hno
  have hraise : decodeStream Config.platform s = .error (.bitsExhausted, bytes.length) := by
    rw [decodeStream_of_branchRoot hlen htree hroot hfit, walk_start hroot hpaths hcount.le hcounted hbits]
    refine walk_runsOut s _ _ _ hroot hcount ?_
    rintro ⟨b, p, hp, hplen, hpbits⟩
    exact hno ⟨b, p, hp, by omega, hpbits⟩
  exact (exec_eq .decode s).trans (congrArg _ (decodeEffect_of_error (ne_zero_of_lt_toNat hcount) hraise))

/-- What a decode gives does not depend on a bit at index BIT_COUNT or above (42_decode R186). -/
theorem decodeStream_congr_bitbuf {p : Params} {s : State} {other : Memory 8}
    (h : ∀ i < s.bitCount.toNat, bitRead other i = bitRead s.bitbuf i) :
    decodeStream p { s with bitbuf := other } = decodeStream p s := by
  have hwalk : walk { s with bitbuf := other } s.bitCount.toNat (DecodeWork.start s.root) s.out =
      walk s s.bitCount.toNat (DecodeWork.start s.root) s.out := by
    refine walk_congr (s := s) (s' := { s with bitbuf := other }) rfl rfl rfl _ _ _ fun i _ hi => h i ?_
    simpa [DecodeWork.start] using hi
  have htree : treeCheck { s with bitbuf := other } = treeCheck s := rfl
  have hroot : ({ s with bitbuf := other } : State).root = s.root := rfl
  simp only [decodeStream, htree, hroot, hwalk]

/-- Settles O53: both decodes give the same OUT or raise the same fault, and no ending of DECODE touches BITBUF. -/
theorem decodeReadsOnlyCountedBits : Obligations.DecodeReadsOnlyCountedBits := by
  intro s other hagree
  refine ⟨decodeEffect Config.platform s, exec_eq .decode s, (exec_eq .decode _).trans (congrArg _ ?_)⟩
  have hstream := decodeStream_congr_bitbuf (p := Config.platform) hagree
  by_cases hzero : s.symCount = 0#64
  · rw [decodeEffect_of_zero hzero]
    exact decodeEffect_of_zero (s := { s with bitbuf := other }) hzero
  · rcases hd : decodeStream Config.platform s with ⟨kind, value⟩ | out
    · rw [decodeEffect_of_error hzero hd]
      exact decodeEffect_of_error (s := { s with bitbuf := other }) hzero (hstream.trans hd)
    · rw [decodeEffect_of_ok hzero hd]
      exact decodeEffect_of_ok (s := { s with bitbuf := other }) hzero (hstream.trans hd)

end Sys2Proof.Machine
end

section
/-! PROOFS. The commands together (42_decode R190, R191): DECODE gives back what ENCODE wrote, and what BUILD makes of
the payload's own counts suits both. -/

namespace Sys2Proof.Machine

/-! ### The stream of the payload -/

/-- PAY[0], …, PAY[n - 1]. -/
def State.payload (s : State) (n : Nat) : List Byte := (List.range n).map s.pay.read

@[simp] theorem length_payload (s : State) (n : Nat) : (s.payload n).length = n := by
  simp [State.payload]

@[simp] theorem getElem_payload (s : State) {n k : Nat} (h : k < (s.payload n).length) :
    (s.payload n)[k] = s.pay.read k := by
  simp [State.payload]

/-- The stream of the payload is the paths of its bytes, one after another (41_encode R155). -/
theorem paths_of_payloadBits {s : State} {n : Nat} {bits : Path} (h : s.payloadBits n = some bits) :
    ∃ paths, List.Forall₂ (fun b p => isPath s.node s.root p b) (s.payload n) paths ∧ paths.flatten = bits := by
  induction n generalizing bits with
  | zero => exact ⟨[], .nil, Option.some.inj h⟩
  | succ n ih =>
    obtain ⟨front, q, hfront, hq, rfl⟩ := payloadBits_succ.1 h
    obtain ⟨paths, hpaths, rfl⟩ := ih hfront
    obtain ⟨hpath, -⟩ := findPath_isPath hq
    refine ⟨paths ++ [q], ?_, by simp⟩
    rw [State.payload, List.range_succ, List.map_append]
    exact List.rel_append hpaths (.cons hpath .nil)

/-- A payload whose bytes all have a path has a stream. -/
theorem payloadBits_of_paths {s : State} {n : Nat} (h : ∀ j < n, (s.findRootPath (s.pay.read j)).isSome = true) :
    ∃ bits, s.payloadBits n = some bits := by
  induction n with
  | zero => exact ⟨[], rfl⟩
  | succ n ih =>
    obtain ⟨front, hfront⟩ := ih fun j hj => h j (by omega)
    obtain ⟨q, hq⟩ := Option.isSome_iff_exists.1 (h n (Nat.lt_succ_self n))
    exact ⟨front ++ q, payloadBits_succ.2 ⟨front, q, hfront, hq, rfl⟩⟩

/-- A leaf root has a path to its own byte alone. -/
theorem byte_of_findRootPath {s : State} {b : Byte} {p : Path} (hroot : tagField (nodeWord0 s.node s.root) = false)
    (h : s.findRootPath b = some p) : byteField (nodeWord0 s.node s.root) = b := by
  obtain ⟨hpath, -⟩ := findPath_isPath h
  cases p with
  | nil => exact hpath.2
  | cons x p => exact absurd hpath.1 (by simp [hroot])

section SameTree
variable {s s' : State} (hnode : s'.node = s.node) (hcount : s'.nodeCount = s.nodeCount)
include hnode hcount

theorem treeCheck_congr : treeCheck s' = treeCheck s := by
  simp only [treeCheck, hnode, hcount]

theorem payloadBits_congr (hpay : s'.pay = s.pay) (n : Nat) : s'.payloadBits n = s.payloadBits n := by
  have hfind : s'.findRootPath = s.findRootPath := by
    funext b
    simp only [State.findRootPath, State.root, hnode, hcount]
  induction n with
  | zero => rfl
  | succ n ih => simp only [State.payloadBits, ih, hpay, hfind]

end SameTree

/-! ### Decoding what was encoded -/

/-- A non-empty ENCODE that ends OK passed its tests, and the paths of the payload exist and fit together
(41_encode R151, R152, R157, R160). -/
theorem encode_ok {s t : State} (hpos : s.payLen ≠ 0#64) (hexec : exec .encode s = .next t) (hok : t.result = .ok) :
    s.payLen.toNat ≤ Config.platform.payMax ∧ treeCheck s = none ∧
      ∃ bits, s.payloadBits s.payLen.toNat = some bits ∧ bits.length ≤ 8 * Config.platform.bitbufMax := by
  obtain rfl : encodeEffect Config.platform s = t := by simpa [exec_eq] using hexec
  rcases encodeEffect_cases Config.platform s with
    ⟨hzero, -⟩ | ⟨r, hlen, htree, hkeeps, hj, -⟩ | ⟨kind, value, -, heq⟩
  · exact absurd hzero hpos
  · obtain ⟨bits, hbits, hpacked⟩ := hkeeps.packed
    rw [hj, payloadBits_clearCache] at hbits
    exact ⟨hlen, htree, bits, hbits, hpacked.nbits ▸ hkeeps.fits⟩
  · rw [heq, raise_result] at hok
    have hfault := result_isFault kind
    rw [hok] at hfault
    cases hfault

/-- A DECODE whose counted bits are the stream of the first SYM_COUNT payload bytes gives those bytes
(42_decode R182, R184). -/
theorem exec_decode_of_payloadBits {s : State} {bits : Path} (hpos : s.symCount ≠ 0#64)
    (hlen : s.symCount.toNat ≤ Config.platform.outMax) (htree : treeCheck s = none)
    (hbits : s.payloadBits s.symCount.toNat = some bits) (hfit : bits.length ≤ 8 * Config.platform.bitbufMax)
    (hcount : s.bitCount.toNat = bits.length) (hread : ∀ i (h : i < bits.length), bitRead s.bitbuf i = bits[i]) :
    ∃ t, exec .decode s = .next t ∧ t.result = .ok ∧ t.outLen = s.symCount ∧
      ∀ k < s.symCount.toNat, t.out.read k = s.pay.read k := by
  cases hroot : tagField (nodeWord0 s.node s.root) with
  | false =>
    obtain ⟨t, hexec, ht, hout⟩ := decodeWithALeafRoot s hpos hlen htree hroot
    refine ⟨t, hexec, by rw [ht], by rw [ht], fun k hk => ?_⟩
    obtain ⟨-, q, -, hq, -⟩ := payloadBits_of_lt hbits hk
    rw [hout, if_pos hk, byte_of_findRootPath hroot hq]
  | true =>
    obtain ⟨paths, hpaths, rfl⟩ := paths_of_payloadBits hbits
    obtain ⟨t, hexec, ht, hout, -⟩ := decodeEmitsTheSymbols s _ paths hlen htree hroot (hcount.trans_le hfit)
      (length_payload s _) hpaths hcount.ge hread
    refine ⟨t, hexec, by rw [ht], by rw [ht], fun k hk => ?_⟩
    rw [hout k (by rwa [length_payload]), getElem_payload]

/-- Settles O54: a successful ENCODE leaves the tree and the payload as they were and the payload's stream in the
counted bits. -/
theorem decodeInvertsEncode : Obligations.DecodeInvertsEncode := by
  intro s t hpos hlen hexec hok
  obtain ⟨hpayMax, htree, bits, hbits, hfit⟩ := encode_ok hpos hexec hok
  obtain ⟨t₁, h₁, -, -, -, hcount, hread, -⟩ := encodeWritesTheStream s bits hpos hpayMax htree hbits hfit
  obtain ⟨t₂, h₂, -, -, -, hnode, hnodeCount, hpay, -⟩ := encodeFrame s
  obtain rfl : t = t₁ := by simpa [hexec] using h₁
  obtain rfl : t = t₂ := by simpa [hexec] using h₂
  rw [← treeCheck_congr (s' := { t with symCount := s.payLen }) hnode hnodeCount] at htree
  rw [← payloadBits_congr (s' := { t with symCount := s.payLen }) hnode hnodeCount hpay] at hbits
  rw [← hpay]
  exact exec_decode_of_payloadBits (s := { t with symCount := s.payLen }) hpos hlen htree hbits hfit hcount hread

/-! ### BUILD from the payload's own counts -/

/-- Every element of a list of numbers below `m` is counted once. -/
theorem sum_counts_eq_length {l : List Nat} {m : Nat} (h : ∀ v ∈ l, v < m) :
    ((List.range m).map fun v => l.count v).sum = l.length := by
  rw [← List.sum_toFinset _ List.nodup_range]
  have hmem : ∀ v ∈ (l : Multiset Nat), v ∈ (List.range m).toFinset :=
    fun v hv => List.mem_toFinset.2 (List.mem_range.2 (h v hv))
  simpa only [Multiset.coe_count, Multiset.coe_card] using Multiset.sum_count_eq_card hmem

section Counts
variable {s : State} {n : Nat} (hcounts : ∀ v < 256,
  (s.freq.read v).toNat = (List.range n).countP (fun j => s.pay.read j == BitVec.ofNat 8 v))
include hcounts

/-- FREQ counts every byte of the payload once, so its sum is the payload's length. -/
theorem freqTotal_of_counts : s.freqTotal = n := by
  have hcount : ∀ v ∈ List.range 256, (s.freq.read v).toNat = ((s.payload n).map BitVec.toNat).count v := by
    intro v hv
    have hv := List.mem_range.1 hv
    rw [hcounts v hv, List.count, State.payload, List.countP_map, List.countP_map]
    refine List.countP_congr fun j _ => ?_
    simp [← BitVec.toNat_inj, Nat.mod_eq_of_lt hv]
  have hbelow : ∀ v ∈ (s.payload n).map BitVec.toNat, v < 256 := by
    intro v hv
    obtain ⟨b, -, rfl⟩ := List.mem_map.1 hv
    exact b.isLt
  calc s.freqTotal = ((List.range 256).map fun v => (s.freq.read v).toNat).sum := by
        rw [State.freqTotal, State.freqTable, List.map_map, Function.comp_def]
    _ = ((List.range 256).map fun v => ((s.payload n).map BitVec.toNat).count v).sum := by
        rw [List.map_congr_left hcount]
    _ = ((s.payload n).map BitVec.toNat).length := sum_counts_eq_length hbelow
    _ = n := by rw [List.length_map, length_payload]

/-- A byte that occurs in the payload has a non-zero count. -/
theorem freq_ne_zero_of_counts {j : Nat} (hj : j < n) : s.freq.read (s.pay.read j).toNat ≠ 0#64 := by
  have hpos : 0 < (s.freq.read (s.pay.read j).toNat).toNat := by
    rw [hcounts _ (s.pay.read j).isLt, List.countP_pos_iff]
    exact ⟨j, List.mem_range.2 hj, by simp⟩
  exact ne_zero_of_lt_toNat hpos

/-- The counts of a non-empty payload of fewer than 2^64 bytes make a tree. -/
theorem buildable_of_counts (hpos : 1 ≤ n) (hn : n < 2 ^ 64) : s.buildable := by
  refine ⟨?_, .inr (by rwa [freqTotal_of_counts hcounts])⟩
  refine List.length_pos_of_mem (a := s.freq.read (s.pay.read 0).toNat) (List.mem_filter.2 ⟨?_, ?_⟩)
  · exact List.mem_map_of_mem (List.mem_range.2 (s.pay.read 0).isLt)
  · simpa using freq_ne_zero_of_counts hcounts hpos

end Counts

/-- Settles O55: the counts of the payload make a tree in which each of its bytes has a path, ENCODE ends OK exactly
when the paths fit together, and DECODE inverts it. -/
theorem roundTripThroughBuild : Obligations.RoundTripThroughBuild := by
  intro s hpos hpayMax houtMax hcounts
  have hbuildable := buildable_of_counts hcounts hpos s.payLen.isLt
  obtain ⟨t, hbuild, hok, -⟩ := buildCompletes s hbuildable
  obtain ⟨t₁, h₁, htree, -⟩ := buildWritesCanonicalRecords s hbuildable
  obtain ⟨t₂, h₂, hpaths⟩ := buildGivesEveryByteAPath s hbuildable
  obtain ⟨t₃, h₃, -, -, -, hpay, hpayLen, -⟩ := buildFrame s
  obtain rfl : t = t₁ := by simpa [hbuild] using h₁
  obtain rfl : t = t₂ := by simpa [hbuild] using h₂
  obtain rfl : t = t₃ := by simpa [hbuild] using h₃
  obtain ⟨bits, hbits⟩ : ∃ bits, t.payloadBits t.payLen.toNat = some bits := by
    rw [hpayLen]
    refine payloadBits_of_paths fun j hj => ?_
    simpa [hpay] using hpaths _ (s.pay.read j).isLt (freq_ne_zero_of_counts hcounts hj)
  rw [← hpayLen] at hpos hpayMax houtMax ⊢
  rw [← hpay]
  have hne := ne_zero_of_lt_toNat hpos
  obtain ⟨u, hencode⟩ : ∃ u, exec .encode t = .next u := ⟨_, exec_eq .encode t⟩
  refine ⟨t, u, bits, hbuild, hok, hbits, hencode, ⟨fun hu => ?fits, fun hfit => ?ends⟩, ?inverse⟩
  case fits =>
    obtain ⟨-, -, bits', hbits', hfit⟩ := encode_ok hne hencode hu
    obtain rfl : bits = bits' := by simpa [hbits] using hbits'
    exact hfit
  case ends =>
    obtain ⟨u', hencode', hu, -⟩ := encodeWritesTheStream t bits hne hpayMax htree hbits hfit
    obtain rfl : u = u' := by simpa [hencode] using hencode'
    exact hu
  case inverse => exact decodeInvertsEncode t u hne houtMax hencode

/-- On the one-node tree DECODE writes copies of the leaf's byte, whatever BITBUF and BIT_COUNT hold
(42_decode R182). -/
theorem exec_decode_oneNode {s : State} {v : Byte} {f : Word} (hcount : s.nodeCount = 1#10)
    (hword : nodeWord0 s.node 0 = (Node.leaf v f).word0) (hpos : s.symCount ≠ 0#64)
    (hlen : s.symCount.toNat ≤ Config.platform.outMax) :
    ∃ t, exec .decode s = .next t ∧ t.result = .ok ∧ t.outLen = s.symCount ∧
      ∀ k < s.symCount.toNat, t.out.read k = v := by
  have hroot : nodeWord0 s.node s.root = (Node.leaf v f).word0 := by
    rw [State.root, hcount]
    exact hword
  obtain ⟨t, hexec, ht, hout⟩ := decodeWithALeafRoot s hpos hlen (treeCheck_oneNode hcount hword)
    (by rw [hroot, tagField_leaf])
  refine ⟨t, hexec, by rw [ht], by rw [ht], fun k hk => ?_⟩
  rw [hout, if_pos hk, hroot, byteField_leaf]

/-- Settles O56: BUILD makes the one-node tree of the byte's leaf, on which DECODE reads no bits. -/
theorem singleSymbolNeedsNoBits : Obligations.SingleSymbolNeedsNoBits := by
  intro s v n bitCount bitbuf hv hn hlen hread hzero
  obtain ⟨t, hbuild, hcount, hword, hfreq⟩ : ∃ t, exec .build s = .next t ∧ t.nodeCount = 1#10 ∧
      nodeWord0 t.node 0 = (Node.leaf (BitVec.ofNat 8 v) n).word0 ∧ nodeFreq t.node 0 = n := by
    refine ⟨_, buildOfOneLeaf s v n hv hn hread hzero, rfl, ?_, read_write_same _ _ _⟩
    rw [word0_leaf, toNat_ofNat_byte hv]
    exact (read_write_other _ _ (by decide)).trans (read_write_same _ _ _)
  obtain ⟨u, hdecode, hok, hlen, hout⟩ := exec_decode_oneNode (f := n)
    (s := { t with symCount := n, bitCount := bitCount, bitbuf := bitbuf }) hcount hword hn hlen
  exact ⟨t, u, hbuild, hcount, hword, hfreq, hdecode, hok, hlen, hout⟩

end Sys2Proof.Machine
end

section
/-! PROOFS. Outcomes and FAULT (60_exceptions): which command ends with which RESULT and KIND (R213), that FAULT gates
nothing (R220), and what clears it (R219). -/

namespace Sys2Proof.Machine

/-! ### The kinds a command raises -/

/-- ENCODE's length test, TreeCheck and its loop raise these kinds and no other (60_exceptions R213). -/
theorem encodePayload_kind {p : Params} {s : State} {e : FaultKind × Nat} (h : encodePayload p s = .error e) :
    e.1 = .payloadTooLong ∨ e.1 = .streamTooLong ∨ e.1 = .nodeCountRange ∨ e.1 = .nodeNotCanonical ∨
      e.1 = .noPath := by
  unfold encodePayload at h
  split at h
  · cases h; exact .inl rfl
  split at h
  · rename_i htree
    cases h
    exact .inr (.inr ((treeCheck_kind htree).imp_right .inl))
  · rcases encodeLoop_cases p s s.bitbuf s.payLen.toNat _ (encodeKeeps_start p s s.bitbuf) with
      ⟨r, hloop, -⟩ | ⟨j, bits, -, -, -, -, ⟨-, hloop⟩ | ⟨q, -, -, hloop⟩⟩ <;> rw [hloop] at h <;> cases h
    · exact .inr (.inr (.inr (.inr rfl)))
    · exact .inr (.inl rfl)

/-- DECODE's two length tests, TreeCheck and its walk raise these kinds and no other (60_exceptions R213). -/
theorem decodeStream_kind {p : Params} {s : State} {e : FaultKind × Nat} (h : decodeStream p s = .error e) :
    e.1 = .outputTooLong ∨ e.1 = .bitCountTooLarge ∨ e.1 = .nodeCountRange ∨ e.1 = .nodeNotCanonical ∨
      e.1 = .bitsExhausted := by
  unfold decodeStream at h
  split at h
  · cases h; exact .inl rfl
  split at h
  · rename_i htree
    cases h
    exact .inr (.inr ((treeCheck_kind htree).imp_right .inl))
  split at h
  · split at h
    · cases h; exact .inr (.inl rfl)
    · exact .inr (.inr (.inr (.inr (walk_kind s _ _ _ _ h))))
  · cases h

/-- Settles O13: each command's endings, as its `_cases` lemma lists them, with the kinds its run can raise. -/
theorem commandsEndWithTheirOutcomes : Obligations.CommandsEndWithTheirOutcomes := by
  refine fun s => ⟨⟨_, exec_eq .build s, ?build⟩, ⟨_, exec_eq .encode s, ?encode⟩, ⟨_, exec_eq .decode s, ?decode⟩⟩
  case build =>
    rcases buildEffect_cases s with heq | ⟨nodes, -, -, -, heq⟩ | ⟨value, -, heq⟩ <;> simp only [heq]
    · exact .inl ⟨.inr rfl, rfl⟩
    · exact .inl ⟨.inl rfl, rfl⟩
    · exact .inr ⟨value, rfl, rfl⟩
  case encode =>
    rcases encodeEffect_cases Config.platform s with ⟨-, heq⟩ | ⟨r, -, -, -, -, heq⟩ | ⟨kind, value, hraise, heq⟩ <;>
      simp only [heq]
    · exact .inl ⟨rfl, rfl⟩
    · exact .inl ⟨rfl, rfl⟩
    · exact .inr ⟨kind, value, rfl, rfl, encodePayload_kind hraise⟩
  case decode =>
    rcases decodeEffect_cases Config.platform s with
      ⟨-, heq⟩ | ⟨out, -, -, -, -, -, -, heq⟩ | ⟨kind, value, hraise, heq⟩ <;> simp only [heq]
    · exact .inl ⟨rfl, rfl⟩
    · exact .inl ⟨rfl, rfl⟩
    · exact .inr ⟨kind, value, rfl, rfl, decodeStream_kind hraise⟩

/-! ### FAULT gates nothing -/

section SameOperands
variable {s s' : State} (hnode : s'.node = s.node) (hcount : s'.nodeCount = s.nodeCount)
include hnode hcount

theorem encodeByte_congr (hpay : s'.pay = s.pay) (p : Params) (r : EncodeRun) :
    encodeByte p s' r = encodeByte p s r := by
  simp only [encodeByte, cachedPath, State.findRootPath, State.root, hnode, hcount, hpay]

theorem encodeLoop_congr (hpay : s'.pay = s.pay) (p : Params) (n : Nat) (r : EncodeRun) :
    encodeLoop p s' n r = encodeLoop p s n r := by
  induction n generalizing r with
  | zero => rfl
  | succ n ih => simp only [encodeLoop, encodeByte_congr hnode hcount hpay, ih]

/-- What ENCODE reads: the tree, the payload and the buffer it appends to (41_encode R150). -/
theorem encodePayload_congr (hpay : s'.pay = s.pay) (hlen : s'.payLen = s.payLen) (hbitbuf : s'.bitbuf = s.bitbuf)
    (p : Params) : encodePayload p s' = encodePayload p s := by
  simp only [encodePayload, treeCheck_congr hnode hcount, encodeLoop_congr hnode hcount hpay, hlen, hbitbuf]

/-- What DECODE reads: the tree, the stream and the buffer it writes to (42_decode R180). -/
theorem decodeStream_congr (hsym : s'.symCount = s.symCount) (hbits : s'.bitCount = s.bitCount)
    (hbitbuf : s'.bitbuf = s.bitbuf) (hout : s'.out = s.out) (p : Params) : decodeStream p s' = decodeStream p s := by
  have hwalk : ∀ n w out, walk s' n w out = walk s n w out := fun n w out =>
    walk_congr hnode hcount hsym n w out fun i _ _ => by rw [hbitbuf]
  have hroot : s'.root = s.root := by simp only [State.root, hcount]
  simp only [decodeStream, treeCheck_congr hnode hcount, hroot, hwalk, hnode, hsym, hbits, hout]

end SameOperands

theorem encodeEffect_of_zero {p : Params} {s : State} (h : s.payLen = 0#64) :
    encodeEffect p s = { s.clearCache with bitCount := 0#64 }.finish .ok := if_pos h

/-! Each command's effect passes FAULT through where it finishes and sets it anyway where it raises
(60_exceptions R214, R215). -/

theorem buildEffect_fault (s : State) :
    buildEffect true { s with fault := true } = { buildEffect true s with fault := true } := by
  rcases hb : buildTree true s.freqTable with ⟨kind, value⟩ | nodes
  · rw [buildEffect_of_error hb]
    exact buildEffect_of_error (s := { s with fault := true }) hb
  · by_cases hnil : nodes = []
    · subst hnil
      rw [buildEffect_of_nil hb]
      exact buildEffect_of_nil (s := { s with fault := true }) hb
    · rw [buildEffect_of_tree hb hnil]
      exact buildEffect_of_tree (s := { s with fault := true }) hb hnil

theorem encodeEffect_fault (p : Params) (s : State) :
    encodeEffect p { s with fault := true } = { encodeEffect p s with fault := true } := by
  by_cases hzero : s.payLen = 0#64
  · rw [encodeEffect_of_zero hzero]
    exact encodeEffect_of_zero (s := { s with fault := true }) hzero
  · have hrun : encodePayload p ({ s with fault := true } : State).clearCache = encodePayload p s.clearCache :=
      encodePayload_congr (s := s.clearCache) (s' := { s.clearCache with fault := true }) rfl rfl rfl rfl rfl p
    rcases hpay : encodePayload p s.clearCache with ⟨kind, value⟩ | r
    · rw [encodeEffect_of_error hzero hpay]
      exact encodeEffect_of_error (s := { s with fault := true }) hzero (hrun.trans hpay)
    · rw [encodeEffect_of_ok hzero hpay]
      exact encodeEffect_of_ok (s := { s with fault := true }) hzero (hrun.trans hpay)

theorem decodeEffect_fault (p : Params) (s : State) :
    decodeEffect p { s with fault := true } = { decodeEffect p s with fault := true } := by
  by_cases hzero : s.symCount = 0#64
  · rw [decodeEffect_of_zero hzero]
    exact decodeEffect_of_zero (s := { s with fault := true }) hzero
  · have hrun : decodeStream p { s with fault := true } = decodeStream p s :=
      decodeStream_congr (s := s) (s' := { s with fault := true }) rfl rfl rfl rfl rfl rfl p
    rcases hd : decodeStream p s with ⟨kind, value⟩ | out
    · rw [decodeEffect_of_error hzero hd]
      exact decodeEffect_of_error (s := { s with fault := true }) hzero (hrun.trans hd)
    · rw [decodeEffect_of_ok hzero hd]
      exact decodeEffect_of_ok (s := { s with fault := true }) hzero (hrun.trans hd)

/-- Settles O14: no command reads FAULT, and none clears it. -/
theorem faultGatesNothing : Obligations.FaultGatesNothing := by
  refine fun i s => ⟨_, exec_eq i _, (exec_eq i _).trans (congrArg _ ?_)⟩
  cases i with
  | build => exact buildEffect_fault { s with fault := false }
  | encode => exact encodeEffect_fault Config.platform { s with fault := false }
  | decode => exact decodeEffect_fault Config.platform { s with fault := false }

/-! ### What clears FAULT -/

theorem exec_keeps_fault {i : Instr} {s t : State} (hf : s.fault = true) (h : exec i s = .next t) : t.fault = true := by
  obtain ⟨u, -, hu⟩ := faultGatesNothing i s
  have hset : ({ s with fault := true } : State) = s := by rw [← hf]
  rw [hset, h] at hu
  cases hu
  rfl

theorem presentCommand_keeps_fault {s t : State} {w : Word} (hf : s.fault = true) (h : presentCommand s w = .next t) :
    t.fault = true := by
  rcases presentCommand_cases h with ⟨r, -, rfl⟩ | ⟨i, -, ⟨-, rfl⟩ | ⟨-, he⟩⟩
  · rfl
  · exact hf
  · exact exec_keeps_fault (s := s.accept i) hf he

/-- A write to a location that clears FAULT is the acknowledge (60_exceptions R219). -/
theorem writeLoc_clears_fault {s : State} {l : Loc} {v : Word} (hf : s.fault = true)
    (h : (s.writeLoc l v).fault = false) : l = .status ∧ v.getLsbD 1 = true := by
  cases l with
  | status => exact ⟨rfl, by simpa [State.writeLoc, hf] using h⟩
  | _ => exact absurd (hf.symm.trans h) nofun

theorem hostWrite_clears_fault {s t : State} {l : Loc} {v : Word} (hf : s.fault = true)
    (h : hostWrite s l v = .next t) (ht : t.fault = false) : s.seq = .idle ∧ l = .status ∧ v.getLsbD 1 = true := by
  rcases hostWrite_cases h with ⟨-, rfl⟩ | ⟨hidle, -, rfl⟩ | ⟨-, -, hc⟩
  · simp [hf] at ht
  · exact ⟨isBusy_eq_false.1 hidle, writeLoc_clears_fault hf ht⟩
  · simp [presentCommand_keeps_fault hf hc] at ht

@[simp] theorem hostRead_fault (s : State) (l : Loc) : (s.hostRead l).fault = s.fault := by
  unfold State.hostRead
  split <;> rfl

/-- An access the block takes is 64 bits wide (20_memory R67). -/
theorem bytes_of_busTarget_loc {p : Params} {a : BusAddr} {bytes : Nat} {l : Loc} (h : busTarget p a bytes = .loc l) :
    bytes = 8 := by
  cases hl : locate p a with
  | none => simp [busTarget, hl] at h
  | some x =>
    by_contra hbad
    simp [busTarget_refused hl (.inl hbad)] at h

/-- Settles O21, along the cases of a step: no command's end, no idling and no read clears FAULT, so it was reset or a
write, and that write was the acknowledge. -/
theorem onlyAcknowledgeOrResetClearsFault : Obligations.OnlyAcknowledgeOrResetClearsFault := by
  intro s t hf hstep ht
  rcases step_cases hstep with ⟨i, -, -, he⟩ | ⟨-, -, rfl⟩ | ⟨e, rest, hh, -, hp⟩
  · simp [exec_keeps_fault hf he] at ht
  · simp [hf] at ht
  · refine ⟨e, rest, hh, ?_⟩
    rcases perform_cases hp with ⟨hact, -⟩ | ⟨a, bytes, l, -, -, rfl⟩ | ⟨a, bytes, v, l, hact, hl, hw⟩
    · exact .inl hact
    · simp [hf] at ht
    · obtain rfl := bytes_of_busTarget_loc hl
      obtain ⟨hidle, rfl, hv⟩ := hostWrite_clears_fault (s := { s with host := rest }) hf hw ht
      exact .inr ⟨hidle, a, v, hact, hl, hv⟩

/-- Settles O10: with no act pending the step of an idle block is no change. -/
theorem idleIsQuiescent : Obligations.IdleIsQuiescent := fun _ => step_quiescent

end Sys2Proof.Machine
end

section
/-! PROOFS. The end of every command (70_reset_and_hazards R262), and reset asserted by the platform (R240, R241). -/

namespace Sys2Proof.Machine

/-- Settles O11: each command's frame says how it ends. -/
theorem everyCommandEnds : Obligations.EveryCommandEnds := by
  intro i s
  cases i with
  | build =>
    obtain ⟨t, hexec, hidle, hdead, -, -, -, -, -, -, -, -, hhost, hread, -⟩ := buildFrame s
    exact ⟨t, hexec, hidle, hdead, hhost, hread⟩
  | encode =>
    obtain ⟨t, hexec, hidle, hdead, -, -, -, -, -, -, -, -, hhost, hread, -⟩ := encodeFrame s
    exact ⟨t, hexec, hidle, hdead, hhost, hread⟩
  | decode =>
    obtain ⟨t, hexec, hidle, hdead, -, -, -, -, -, -, -, -, -, hhost, hread, -⟩ := decodeFrame s
    exact ⟨t, hexec, hidle, hdead, hhost, hread⟩

/-- The step of a reset that lands now, a command running or not (70_reset_and_hazards R240). -/
theorem step_reset {s : State} {e : HostEvent} {rest : List HostEvent} (hh : s.host = e :: rest) (hact : e.act = .reset)
    (hnow : s.seq = .idle ∨ e.early = true) : step s = .next ({ s with host := rest } : State).platformReset := by
  rw [step_perform hh hnow, hact]
  rfl

/-- STATUS reads 0 after a reset: BUSY and FAULT clear, RESULT OK (10_state R29, R43). -/
@[simp] theorem platformReset_status (s : State) : s.platformReset.status = 0#64 :=
  (rfl : State.reset.status = 0#64)

/-- Settles O2: the reset lands now, and every field of what it leaves is one that reset states or a fresh draw. -/
theorem platformResetAbandonsEverything : Obligations.PlatformResetAbandonsEverything := by
  intro s e rest hh hact hnow
  exact ⟨_, step_reset hh hact hnow, rfl, rfl, platformReset_status _, rfl, rfl, rfl, rfl, rfl, rfl, rfl, rfl, rfl,
    fun _ => ⟨rfl, rfl, rfl, rfl, rfl⟩⟩

end Sys2Proof.Machine
end
